-- ==== Sys2Proof/Word.lean ====
section
/-!
DEFINITION. The word types of the register window and of the command word (10_state.md R25,
30_encoding.md R90). Every quantity of the block is unsigned (00_scope.md R8).
-/

namespace Sys2Proof

/-- One 32-bit register value, or one 32-bit command word (R25, R90). -/
abbrev Word := BitVec 32

/-- The 24-bit operand field `opd` of a command word, bits 23:0 (R90). -/
abbrev Opd := BitVec 24

/-- The 8-bit opcode field `op` of a command word, bits 31:24 (R90). -/
abbrev Op := BitVec 8

end Sys2Proof
end

