-- ==== Sys2Proof/Config.lean ====
section
/-!
DEFINITION. The two parameters of the block and the constants derived from them (00_scope.md R6, R7).
The spec leaves no value free (70_reset_and_hazards.md R279), so nothing here is opaque.
-/

namespace Sys2Proof

/-- The parameters a model takes as arguments (R6): `SYMW`, the width of a symbol in bits, and
`CNTW`, the width of a count in bits. -/
structure Params where
  symw : Nat
  cntw : Nat
deriving DecidableEq, Repr

namespace Params

/-- The reference values of R6: SYMW = 8, CNTW = 32. -/
def reference : Params := { symw := 8, cntw := 32 }

/-- The legal range of R6: 8 ≤ SYMW ≤ 23 and 8 ≤ CNTW ≤ 32. -/
abbrev Legal (p : Params) : Prop := (8 ≤ p.symw ∧ p.symw ≤ 23) ∧ (8 ≤ p.cntw ∧ p.cntw ≤ 32)

/-- NSYM, the number of distinct symbol values (R7). -/
def nsym (p : Params) : Nat := 2 ^ p.symw

/-- MAXNODES, the capacity of the node memory (R7). -/
def maxnodes (p : Params) : Nat := 2 * p.nsym - 1

/-- IDXW, the width of a node index (R7). -/
def idxw (p : Params) : Nat := p.symw + 1

/-- MAXCODE, the greatest possible code length in bits (R7). -/
def maxcode (p : Params) : Nat := p.nsym - 1

/-- CODEWORDS, the number of 32-bit words RDCODE can read per code: ceil(MAXCODE / 32) (R7). -/
def codewords (p : Params) : Nat := (p.maxcode + 31) / 32

/-- CNTMAX, the greatest representable count (R7). -/
def cntmax (p : Params) : Nat := 2 ^ p.cntw - 1

end Params

end Sys2Proof
end

