-- ==== Sys2Proof/Syntax.lean ====
section
/-!
DEFINITION. The twelve commands of the block, one constructor per row of the opcode map
(30_encoding.md R94). Every constructor carries the 24-bit operand field of its word, legal or not:
R94 selects the command by the opcode alone and checks the operand afterwards (R95, R97), so an
illegal operand is a term of this type, which `Instr.wellFormed` refuses.
-/

namespace Sys2Proof

inductive Instr where
  /-- NOP, format Z (45_control.md R220). -/
  | nop (opd : Opd)
  /-- CLEAR, format Z (45_control.md R221). -/
  | clear (opd : Opd)
  /-- COUNT, format S (40_frequency.md R121). -/
  | count (sym : Opd)
  /-- LOADF, format S, second operand in ARG (40_frequency.md R123). -/
  | loadf (sym : Opd)
  /-- RDFREQ, format S (40_frequency.md R124). -/
  | rdfreq (sym : Opd)
  /-- BUILD, format Z (41_tree_builder.md R141). -/
  | build (opd : Opd)
  /-- RDNODE, format N (41_tree_builder.md R152). -/
  | rdnode (idx : Opd)
  /-- GENCODE, format Z (42_code_table.md R171). -/
  | gencode (opd : Opd)
  /-- RDCODE, format S, second operand in ARG (42_code_table.md R176). -/
  | rdcode (sym : Opd)
  /-- EMIT, format S (43_huffman_emit.md R191). -/
  | emit (sym : Opd)
  /-- RLEPUT, format S (44_rle.md R202). -/
  | rleput (sym : Opd)
  /-- RLEEND, format Z (44_rle.md R203). -/
  | rleend (opd : Opd)
deriving DecidableEq, Repr

end Sys2Proof
end

