-- ==== Sys2Proof/Decode.lean ====
section
/-!
DEFINITION. The decoder of a 32-bit command word and, after it, the encoder, both from the opcode map
of 30_encoding.md R94. Decoding depends on nothing but the word: no mode and no parameter changes it
(R99). The operand field is not checked here (R94: "The operand is then checked by R97").
-/

namespace Sys2Proof

/-- Why a word is no command. -/
inductive DecodeError where
  /-- The opcode is none of the twelve of R94 (R96). -/
  | illegalCmd
deriving DecidableEq, Repr

/-- Bits 31:24 of a command word (R90). -/
def opField (w : Word) : Op := w.extractLsb' 24 8

/-- Bits 23:0 of a command word (R90). -/
def opdField (w : Word) : Opd := w.extractLsb' 0 24

/-- The command a word selects (R94), total on the 2^32 words; a reserved opcode is refused (R96). -/
def decode (w : Word) : Except DecodeError Instr :=
  let opd := opdField w
  match (opField w).toNat with
  | 0x00 => .ok (.nop opd)
  | 0x01 => .ok (.clear opd)
  | 0x10 => .ok (.count opd)
  | 0x11 => .ok (.loadf opd)
  | 0x12 => .ok (.rdfreq opd)
  | 0x20 => .ok (.build opd)
  | 0x21 => .ok (.rdnode opd)
  | 0x30 => .ok (.gencode opd)
  | 0x32 => .ok (.rdcode opd)
  | 0x40 => .ok (.emit opd)
  | 0x50 => .ok (.rleput opd)
  | 0x51 => .ok (.rleend opd)
  | _ => .error .illegalCmd

/-- The opcode of a command (R94). -/
def Instr.opcode : Instr → Op
  | .nop _ => 0x00#8
  | .clear _ => 0x01#8
  | .count _ => 0x10#8
  | .loadf _ => 0x11#8
  | .rdfreq _ => 0x12#8
  | .build _ => 0x20#8
  | .rdnode _ => 0x21#8
  | .gencode _ => 0x30#8
  | .rdcode _ => 0x32#8
  | .emit _ => 0x40#8
  | .rleput _ => 0x50#8
  | .rleend _ => 0x51#8

/-- The operand field of a command (R91). -/
def Instr.operand : Instr → Opd
  | .nop opd => opd
  | .clear opd => opd
  | .count sym => sym
  | .loadf sym => sym
  | .rdfreq sym => sym
  | .build opd => opd
  | .rdnode idx => idx
  | .gencode opd => opd
  | .rdcode sym => sym
  | .emit sym => sym
  | .rleput sym => sym
  | .rleend opd => opd

/-- The command word: opcode in bits 31:24, operand in bits 23:0 (R90, R100). -/
def encode (i : Instr) : Word := i.opcode ++ i.operand

/-- The decoder on a word given as a number, bit 0 the least significant bit of the only word; there
is one length, 32 bits (R90), and a shorter row's upper bits are 0. -/
def decodeTableWord (nbits w : Nat) : Option Instr :=
  if nbits ≤ 32 ∧ w < 2 ^ nbits then
    match decode (BitVec.ofNat 32 w) with
    | .ok i => some i
    | .error _ => none
  else none

end Sys2Proof
end

