-- ==== Sys2Proof/Machine/State.lean ====
section
/-!
DEFINITION. The state of one CXC instance (10_state.md R20 to R50) as plain data, with what stands
outside the block and feeds its step: the two parameters, the bus transactions and resets that have
not been served yet, and the response to the last one served (00_scope.md R11).
-/

namespace Sys2Proof.Machine

/-- STATUS.PHASE (R28). The code 6 is never produced, so it has no constructor. -/
inductive Phase where
  | idle | hcount | htree | hcode | rlerun | rledone | fault
deriving DecidableEq, Repr

/-- ERR.CAUSE (60_exceptions.md R231). The codes 8 to 15 are never produced. -/
inductive Cause where
  /-- 0: no failure is recorded. -/
  | none
  /-- 1: the input of the call has zero length (R232). -/
  | emptyInput
  /-- 2: the opcode is not one of the twelve (R233). -/
  | illegalCmd
  /-- 3: an operand is outside its legal range (R234). -/
  | badOperand
  /-- 4: the command is not legal in the current phase (R235). -/
  | badPhase
  /-- 5: the input length would exceed CNTMAX (R237). -/
  | countOverflow
  /-- 6: the symbol has no code (R238). -/
  | noCode
  /-- 7: a node index or a code word index is out of range (R239). -/
  | badIndex
deriving DecidableEq, Repr

/-- One record of the memory NODE (R42). -/
structure Node where
  freq : Nat
  leaf : Bool
  sym : Nat
  left : Nat
  right : Nat
deriving DecidableEq, Repr

/-- The record with all fields 0 (R42, R49). -/
def Node.zero : Node := { freq := 0, leaf := false, sym := 0, left := 0, right := 0 }

/-- One entry of CODE: the code as the bit-string c[0], c[1], …, root end first (R10). Its `len` is
the list's length, `bits[j]` is c[j] below `len` and 0 from there on (R43); the empty list is
"no code". -/
abbrev Code := List Bool

/-- An internal memory: the entries that differ from what an unlisted address reads as, by rising
address. -/
abbrev Memory (α : Type) := List (Nat × α)

/-- One host transaction: a read or a write of `size` bytes at a byte offset from the window's base
(20_memory.md R61, R62). An access that is not 4 bytes wide is refused, so its data beyond 32 bits
is not held. -/
inductive Transaction where
  | read (off size : Nat)
  | write (off size : Nat) (data : Word)
deriving DecidableEq, Repr

/-- What the outside world does to the block: a bus transaction, the reset input between two
transactions (70_reset_and_hazards.md R270), or the reset input while a transaction is being served
(R272). -/
inductive Input where
  | bus (t : Transaction)
  | reset
  | resetDuring (t : Transaction)
deriving DecidableEq, Repr

/-- The block's answer to a bus transaction (R61, R62, R64). The read data of a refused read is
undefined and gets no value (R64). -/
inductive Response where
  | okayRead (data : Word)
  | okayWrite
  | error
deriving DecidableEq, Repr

structure State where
  /-- SYMW and CNTW; no step changes them (R6, R50). -/
  par : Params
  /-- What the outside world has in store, next first (R11, R71). -/
  inputs : List Input
  /-- The response to the last transaction served. -/
  response : Option Response
  /-- ARG (R22). -/
  arg : Word
  /-- RES0 (R23). -/
  res0 : Word
  /-- RES1 (R23). -/
  res1 : Word
  /-- RES2 (R23). -/
  res2 : Word
  /-- STATUS.PHASE (R28). -/
  phase : Phase
  /-- STATUS.RUNV, an open RLE run (R31). -/
  runv : Bool
  /-- ERR.CAUSE (R32). -/
  err : Cause
  /-- ERRCMD (R33). -/
  errcmd : Word
  /-- NSYMS (R34). -/
  nsyms : Nat
  /-- TOTAL (R35). -/
  total : Nat
  /-- NNODES (R36). -/
  nnodes : Nat
  /-- ROOT (R37). -/
  root : Nat
  /-- RLESYM (R38). -/
  rlesym : Nat
  /-- RLECNT (R39). -/
  rlecnt : Nat
  /-- FREQ, by symbol; 0 is "no entry" (R41). -/
  freq : Memory Nat
  /-- NODE, by node index (R42). -/
  node : Memory Node
  /-- CODE, by symbol (R43). -/
  code : Memory Code
  /-- OUT, the characters delivered since reset or CLEAR, oldest first (R45). -/
  out : List Nat
deriving DecidableEq, Repr

/-- Why the machine stops. Both stops lie in states no run reaches (the spec gives the command no
outcome there); both are safe. -/
inductive Fault where
  /-- Raised by BUILD when NSYMS ≠ 0 and yet no FREQ entry is nonzero: the queue holds no element to
  write to ROOT (R146). Safe: R44 item 1 rules such states out. -/
  | emptyQueue
  /-- Raised by GENCODE when the walk has not ended after NNODES visits: the records of NODE are no
  tree and the walk would go on (R174). Safe: R44 item 5 rules such states out. -/
  | endlessWalk
deriving DecidableEq, Repr

/-- Why a command has no meaning. -/
inductive Refusal where
  /-- Raised by a command of the table that has no meaning yet: none is left. Safe. -/
  | notModelled (mnemonic : String)
deriving DecidableEq, Repr

/-- The reset state of an instance with given parameters (R49, R270): every item 0, PHASE = IDLE,
no input in store. -/
def State.resetWith (p : Params) : State where
  par := p
  inputs := []
  response := Option.none
  arg := 0
  res0 := 0
  res1 := 0
  res2 := 0
  phase := .idle
  runv := false
  err := .none
  errcmd := 0
  nsyms := 0
  total := 0
  nnodes := 0
  root := 0
  rlesym := 0
  rlecnt := 0
  freq := []
  node := []
  code := []
  out := []

/-- The machine right after reset, at the reference parameters (R6, R49). -/
def State.reset : State := State.resetWith Params.reference

end Sys2Proof.Machine
end

