-- ==== Sys2Proof/Machine/Ops.lean ====
section
/-!
DEFINITION. The named operations over the state: reading and writing one entry of an internal memory,
taking a failure (60_exceptions.md R236) and, beside it, the one way out of FAULT (45_control.md R221,
R222), appending to the output stream, and answering the host.
-/

namespace Sys2Proof.Machine

namespace Memory

/-- The entry at `a`; an unlisted address reads as `d`. -/
def read {α : Type} (d : α) (a : Nat) : Memory α → α
  | [] => d
  | e :: m => if e.1 = a then e.2 else read d a m

/-- List `v` at `a`, keeping addresses rising. -/
def insert {α : Type} (a : Nat) (v : α) : Memory α → Memory α
  | [] => [(a, v)]
  | e :: m => if a < e.1 then (a, v) :: e :: m else e :: insert a v m

/-- Unlist `a`. -/
def erase {α : Type} (a : Nat) (m : Memory α) : Memory α := m.filter (fun e => e.1 != a)

/-- Make `a` read as `v`. Writing what an unlisted address reads as unlists `a`. -/
def write {α : Type} [DecidableEq α] (d : α) (a : Nat) (v : α) (m : Memory α) : Memory α :=
  if v = d then erase a m else insert a v (erase a m)

/-- Addresses strictly rise from `lo` on. -/
def rising {α : Type} (lo : Nat) : Memory α → Bool
  | [] => true
  | e :: m => decide (lo ≤ e.1) && rising (e.1 + 1) m

/-- The canonical form: addresses strictly rise and no entry equals what an unlisted one reads as. -/
def wf {α : Type} [DecidableEq α] (d : α) (m : Memory α) : Bool :=
  rising 0 m && m.all (fun e => e.2 != d)

end Memory

/-- FREQ[s]; an entry nothing has set is 0 (R41, R49). -/
def State.freqAt (s : State) (a : Nat) : Nat := Memory.read 0 a s.freq

/-- NODE[i]; all fields are 0 after reset and CLEAR (R42, R49). -/
def State.nodeAt (s : State) (i : Nat) : Node := Memory.read Node.zero i s.node

/-- CODE[s]; the empty bit-string is "no code" (R43, R49). -/
def State.codeAt (s : State) (a : Nat) : Code := Memory.read [] a s.code

/-- Taking a failure: `raise Fail(c)` in a command whose word is `w` changes PHASE, ERR.CAUSE and
ERRCMD and nothing else (R236, R248). -/
def State.fail (c : Cause) (w : Word) (s : State) : State :=
  { s with phase := .fault, err := c, errcmd := w }

/-- The way out of FAULT and the start of a call: what CLEAR assigns (R221, R222). -/
def State.clear (s : State) : State :=
  { s with
    freq := [], node := [], code := []
    nsyms := 0, total := 0, nnodes := 0, root := 0
    runv := false, rlesym := 0, rlecnt := 0
    arg := 0, res0 := 0, res1 := 0, res2 := 0
    err := .none, errcmd := 0
    phase := .idle
    out := [] }

/-- OUT <- OUT ++ cs (R9, R45). -/
def State.append (cs : List Nat) (s : State) : State := { s with out := s.out ++ cs }

/-- The response to the transaction just served (R61, R62). -/
def State.respond (r : Response) (s : State) : State := { s with response := some r }

/-- A command ends with failure cause `c`. -/
def raiseFail (c : Cause) (i : Instr) (s : State) : Host.Outcome State Fault Refusal :=
  .next (s.fail c (encode i))

/-- A word with a reserved opcode: ignored in FAULT (R243), else ILLEGAL_CMD (R96). -/
def raiseIllegal (w : Word) (s : State) : Host.Outcome State Fault Refusal :=
  if s.phase = .fault then .next s else .next (s.fail .illegalCmd w)

end Sys2Proof.Machine
end

