-- ==== Sys2Proof/Machine/Operands.lean ====
section
/-!
DEFINITION. The operands of a command: the formats of 30_encoding.md R91 and their legality (R92, R97),
and the second operand ARG (R93).
-/

namespace Sys2Proof.Machine

/-- The three formats of R91. -/
inductive Format where
  | z | s | n
deriving DecidableEq, Repr

/-- The format of a command, told by the opcode alone (R91, R94). -/
def Format.of : Instr → Format
  | .nop _ => .z
  | .clear _ => .z
  | .count _ => .s
  | .loadf _ => .s
  | .rdfreq _ => .s
  | .build _ => .z
  | .rdnode _ => .n
  | .gencode _ => .z
  | .rdcode _ => .s
  | .emit _ => .s
  | .rleput _ => .s
  | .rleend _ => .z

/-- The legal values of the operand field (R91). -/
def Format.legal (p : Params) : Format → Opd → Bool
  | .z, opd => opd == 0
  | .s, opd => decide (opd.toNat < p.nsym)
  | .n, _ => true

/-- The test of R97 on the operand field. -/
def operandLegal (p : Params) (i : Instr) : Bool := (Format.of i).legal p i.operand

/-- `sym` of a format-S command, zero-extended (R92). -/
def symbolOf (opd : Opd) : Nat := opd.toNat

/-- `idx` of a format-N command, zero-extended (R92). -/
def indexOf (opd : Opd) : Nat := opd.toNat

/-- LOADF's count ARG[CNTW−1:0]; none where a bit of ARG at or above CNTW is 1 (R93, R123). -/
def countArg (s : State) : Option Nat :=
  if s.arg.toNat / 2 ^ s.par.cntw = 0 then some (s.arg.toNat % 2 ^ s.par.cntw) else none

/-- RDCODE's word index ARG[31:0] (R93, R176). -/
def wordArg (s : State) : Nat := s.arg.toNat

/-- zext_32 of a number (R8). -/
def zext32 (n : Nat) : Word := BitVec.ofNat 32 n

end Sys2Proof.Machine
end

