-- ==== Sys2Proof/Machine/Command.lean ====
section
/-!
DEFINITION. What every command goes through before its own rule (30_encoding.md R95, after the opcode is
known): FAULT ignores it, then the operand field, then the phase (60_exceptions.md R240, R242).
-/

namespace Sys2Proof.Machine

/-- The `ok` entries of the table of R240, column by column FAULT excluded. -/
def legalIn (p : Phase) : Instr → Bool
  | .nop _ => p != .fault
  | .clear _ => p != .fault
  | .count _ => p == .idle || p == .hcount
  | .loadf _ => p == .idle || p == .hcount
  | .rdfreq _ => p != .fault
  | .build _ => p == .idle || p == .hcount
  | .rdnode _ => p == .htree || p == .hcode
  | .gencode _ => p == .htree
  | .rdcode _ => p == .hcode
  | .emit _ => p == .hcode
  | .rleput _ => p == .idle || p == .rlerun
  | .rleend _ => p == .idle || p == .rlerun

/-- The tests of R95 in the priority order of R242, then the command's own rule `body`. In FAULT the
command is ignored: no state changes (R243). -/
def command (i : Instr) (s : State) (body : Host.Outcome State Fault Refusal) :
    Host.Outcome State Fault Refusal :=
  if s.phase = .fault then .next s
  else if operandLegal s.par i = false then raiseFail .badOperand i s
  else if legalIn s.phase i = false then raiseFail .badPhase i s
  else body

end Sys2Proof.Machine
end

