-- ==== Sys2Proof/Machine/CodeTable.lean ====
section
/-!
DEFINITION. GENCODE and RDCODE (42_code_table.md). The walk stack WS exists only inside GENCODE
(10_state.md R47).
-/

namespace Sys2Proof.Machine

/-- The loop of R174 with stack `ws`, at most `k` turns of it: pop (i, p); at a leaf, CODE[sym] <- p;
at an internal node push the right child with p ++ 1, then the left with p ++ 0 (R172). None where
the stack is not empty after `k` turns. -/
def walk (node : Memory Node) : Nat → List (Nat × Code) → Memory Code → Option (Memory Code)
  | _, [], code => some code
  | 0, _ :: _, _ => none
  | k + 1, (i, p) :: ws, code =>
    let r := Memory.read Node.zero i node
    if r.leaf then walk node k ws (Memory.write [] r.sym p code)
    else walk node k ((r.left, p ++ [false]) :: (r.right, p ++ [true]) :: ws) code

/-- CODE as GENCODE leaves it: the code "0" for the symbol of a one-leaf tree (R173), else the walk
from the root, whose loop body runs NNODES times (R174). -/
def codeTable (node : Memory Node) (root nnodes : Nat) (code : Memory Code) :
    Option (Memory Code) :=
  let r := Memory.read Node.zero root node
  if r.leaf then some (Memory.write [] r.sym [false] code)
  else walk node nnodes [(root, [])] code

/-- GENCODE (R171). -/
def execGencode (opd : Opd) (s : State) : Host.Outcome State Fault Refusal :=
  command (.gencode opd) s <|
    match codeTable s.node s.root s.nnodes s.code with
    | none => .fault .endlessWalk
    | some code => .next { s with code := code, phase := .hcode }

/-- bits[j] of a CODE entry: c[j], and 0 from the code's length on (R43). -/
def codeBit (c : Code) (j : Nat) : Bool := c.getD j false

/-- The number whose bit j is the j-th listed bit. -/
def packBits : List Bool → Nat
  | [] => 0
  | b :: bs => b.toNat + 2 * packBits bs

/-- RES0 of RDCODE: bit j is bits[32·k + j] below MAXCODE, else 0 (R176). -/
def codeWord (p : Params) (c : Code) (k : Nat) : Word :=
  BitVec.ofNat 32 (packBits ((List.range 32).map fun j =>
    decide (32 * k + j < p.maxcode) && codeBit c (32 * k + j)))

/-- RDCODE (R176). -/
def execRdcode (sym : Opd) (s : State) : Host.Outcome State Fault Refusal :=
  command (.rdcode sym) s <|
    let k := wordArg s
    if s.par.codewords ≤ k then raiseFail .badIndex (.rdcode sym) s
    else
      let c := s.codeAt (symbolOf sym)
      .next { s with res1 := zext32 c.length, res0 := codeWord s.par c k }

end Sys2Proof.Machine
end

