-- ==== Sys2Proof/Machine/Control.lean ====
section
/-!
DEFINITION. NOP and CLEAR (45_control.md).
-/

namespace Sys2Proof.Machine

/-- NOP: nothing changes (R220). -/
def execNop (opd : Opd) (s : State) : Host.Outcome State Fault Refusal :=
  command (.nop opd) s (.next s)

/-- CLEAR (R221). In FAULT exactly the word 0x01000000 has its effect and any other CLEAR word is
ignored (R95, R243). -/
def execClear (opd : Opd) (s : State) : Host.Outcome State Fault Refusal :=
  if s.phase = .fault ∧ opd = 0 then .next s.clear
  else command (.clear opd) s (.next s.clear)

end Sys2Proof.Machine
end

