-- ==== Sys2Proof/Machine/Emit.lean ====
section
/-!
DEFINITION. EMIT (43_huffman_emit.md).
-/

namespace Sys2Proof.Machine

/-- The output character of a bit: 0x30 for 0, 0x31 for 1 (00_scope.md R10). -/
def charOfBit (b : Bool) : Nat := if b then 0x31 else 0x30

/-- A code as text, root-end bit first (R10, R191). -/
def codeText (c : Code) : List Nat := c.map charOfBit

/-- EMIT (R191); a symbol without a code fails (R192). -/
def execEmit (sym : Opd) (s : State) : Host.Outcome State Fault Refusal :=
  command (.emit sym) s <|
    let c := s.codeAt (symbolOf sym)
    if c.length = 0 then raiseFail .noCode (.emit sym) s
    else .next (s.append (codeText c))

end Sys2Proof.Machine
end

