-- ==== Sys2Proof/Machine/Frequency.lean ====
section
/-!
DEFINITION. COUNT, LOADF and RDFREQ (40_frequency.md).
-/

namespace Sys2Proof.Machine

/-- 1 where a table entry holds a count, else 0 (R41, R123). -/
def entryCount (n : Nat) : Nat := if n = 0 then 0 else 1

/-- COUNT (R121). -/
def execCount (sym : Opd) (s : State) : Host.Outcome State Fault Refusal :=
  command (.count sym) s <|
    if s.total = s.par.cntmax then raiseFail .countOverflow (.count sym) s
    else
      let a := symbolOf sym
      .next
        { s with
          nsyms := if s.freqAt a = 0 then s.nsyms + 1 else s.nsyms
          freq := Memory.write 0 a (s.freqAt a + 1) s.freq
          total := s.total + 1
          phase := .hcount }

/-- LOADF (R123). -/
def execLoadf (sym : Opd) (s : State) : Host.Outcome State Fault Refusal :=
  command (.loadf sym) s <|
    match countArg s with
    | none => raiseFail .badOperand (.loadf sym) s
    | some new =>
      let a := symbolOf sym
      let old := s.freqAt a
      let t := s.total - old + new
      if s.par.cntmax < t then raiseFail .countOverflow (.loadf sym) s
      else
        .next
          { s with
            freq := Memory.write 0 a new s.freq
            total := t
            nsyms := s.nsyms - entryCount old + entryCount new
            phase := .hcount }

/-- RDFREQ (R124). -/
def execRdfreq (sym : Opd) (s : State) : Host.Outcome State Fault Refusal :=
  command (.rdfreq sym) s <|
    .next { s with res0 := zext32 (s.freqAt (symbolOf sym)) }

end Sys2Proof.Machine
end

