-- ==== Sys2Proof/Machine/Rle.lean ====
section
/-!
DEFINITION. RLEPUT and RLEEND (44_rle.md).
-/

namespace Sys2Proof.Machine

/-- The loop of `dec` (R205), at most `k` turns of it: digits of `n` in front of `digits`. -/
def decLoop : Nat → Nat → List Nat → List Nat
  | 0, _, digits => digits
  | k + 1, n, digits =>
    let digits := (0x30 + n % 10) :: digits
    if n / 10 = 0 then digits else decLoop k (n / 10) digits

/-- The decimal characters of `n`, most significant digit first (R10, R205). A turn at least halves
`n`, so its length in bits bounds the turns. -/
def dec (n : Nat) : List Nat := decLoop (n.log2 + 1) n []

/-- The token of a run: the symbol's own number, then the count in decimal (R201, R205). -/
def runToken (sym cnt : Nat) : List Nat := sym :: dec cnt

/-- RLEPUT (R202). -/
def execRleput (sym : Opd) (s : State) : Host.Outcome State Fault Refusal :=
  command (.rleput sym) s <|
    let a := symbolOf sym
    if s.total = s.par.cntmax then raiseFail .countOverflow (.rleput sym) s
    else if s.runv = false then
      .next { s with rlesym := a, rlecnt := 1, runv := true, total := s.total + 1, phase := .rlerun }
    else if a = s.rlesym then
      .next { s with rlecnt := s.rlecnt + 1, total := s.total + 1, phase := .rlerun }
    else
      .next
        { s.append (runToken s.rlesym s.rlecnt) with
          rlesym := a, rlecnt := 1, total := s.total + 1, phase := .rlerun }

/-- RLEEND (R203); without an open run the input was empty (R204). -/
def execRleend (opd : Opd) (s : State) : Host.Outcome State Fault Refusal :=
  command (.rleend opd) s <|
    if s.runv = false then raiseFail .emptyInput (.rleend opd) s
    else .next { s.append (runToken s.rlesym s.rlecnt) with runv := false, phase := .rledone }

end Sys2Proof.Machine
end

