-- ==== Sys2Proof/Machine/Tree.lean ====
section
/-!
DEFINITION. BUILD and RDNODE (41_tree_builder.md). The micro-state (n, PQ) of BUILD (R148) exists only
inside the command (10_state.md R46).
-/

namespace Sys2Proof.Machine

/-- BUILD's micro-state beside the node memory it fills: the priority queue and the next free node
index (R46, R148). -/
structure Builder where
  node : Memory Node
  pq : List Nat
  n : Nat
deriving DecidableEq, Repr

/-- NODE[n] <- r ; n <- n + 1. -/
def Builder.push (b : Builder) (r : Node) : Builder :=
  { b with node := Memory.write Node.zero b.n r b.node, n := b.n + 1 }

/-- The leaf record of symbol `a` with count `f` (R143). -/
def leafNode (f a : Nat) : Node := { freq := f, leaf := true, sym := a, left := 0, right := 0 }

/-- The internal record over the children `a` and `b`, `a` popped first (R145). -/
def mergeNode (node : Memory Node) (a b : Nat) : Node :=
  { freq := (Memory.read Node.zero a node).freq + (Memory.read Node.zero b node).freq
    leaf := false, sym := 0, left := a, right := b }

/-- One turn of the leaf loop: a leaf for symbol `a` if its count is nonzero (R143). -/
def addLeaf (freq : Memory Nat) (b : Builder) (a : Nat) : Builder :=
  if Memory.read 0 a freq = 0 then b else b.push (leafNode (Memory.read 0 a freq) a)

/-- The leaves, in ascending symbol order from index 0, and the queue of all of them (R141, R143). -/
def initBuilder (p : Params) (freq : Memory Nat) (node : Memory Node) : Builder :=
  let b := (List.range p.nsym).foldl (addLeaf freq) { node := node, pq := [], n := 0 }
  { b with pq := List.range b.n }

/-- `i` comes before `j` in the priority order: (NODE[i].freq, i) is the lesser pair (R144). -/
def before (node : Memory Node) (i j : Nat) : Bool :=
  let fi := (Memory.read Node.zero i node).freq
  let fj := (Memory.read Node.zero j node).freq
  decide (fi < fj) || (fi == fj && decide (i < j))

/-- The least of `i` and the listed indices in the priority order. -/
def least (node : Memory Node) (i : Nat) : List Nat → Nat
  | [] => i
  | j :: js => least node (if before node j i then j else i) js

/-- popmin: the least index of the queue and the queue without it (R144). -/
def popmin (node : Memory Node) : List Nat → Option (Nat × List Nat)
  | [] => none
  | i :: is =>
    let m := least node i is
    some (m, (i :: is).erase m)

/-- One merge (R145); a queue of fewer than two is left alone. -/
def mergeStep (b : Builder) : Builder :=
  match popmin b.node b.pq with
  | none => b
  | some (x, rest) =>
    match popmin b.node rest with
    | none => b
    | some (y, rest') =>
      { b.push (mergeNode b.node x y) with pq := rest' ++ [b.n] }

/-- Merges while the queue holds more than one index (R141, R146), at most `k` of them. -/
def mergeLoop : Nat → Builder → Builder
  | 0, b => b
  | k + 1, b => if 1 < b.pq.length then mergeLoop k (mergeStep b) else b

/-- The whole merge: each turn removes one index from the queue, so its length bounds the turns
(R146). -/
def buildTree (p : Params) (freq : Memory Nat) (node : Memory Node) : Builder :=
  let b := initBuilder p freq node
  mergeLoop b.pq.length b

/-- BUILD (R141). -/
def execBuild (opd : Opd) (s : State) : Host.Outcome State Fault Refusal :=
  command (.build opd) s <|
    if s.nsyms = 0 then raiseFail .emptyInput (.build opd) s
    else
      let b := buildTree s.par s.freq s.node
      match b.pq with
      | [] => .fault .emptyQueue
      | r :: _ => .next { s with node := b.node, root := r, nnodes := b.n, phase := .htree }

/-- RES1 of RDNODE: leaf flag in bit 31, bits 30:24 zero, symbol or left child in bits 23:0 (R152). -/
def Node.res1 (r : Node) : Word :=
  if r.leaf then 1#1 ++ 0#7 ++ BitVec.ofNat 24 r.sym else 0#1 ++ 0#7 ++ BitVec.ofNat 24 r.left

/-- RES2 of RDNODE: the right child, 0 for a leaf (R152). -/
def Node.res2 (r : Node) : Word := if r.leaf then 0 else zext32 r.right

/-- RDNODE (R152). -/
def execRdnode (idx : Opd) (s : State) : Host.Outcome State Fault Refusal :=
  command (.rdnode idx) s <|
    if s.nnodes ≤ indexOf idx then raiseFail .badIndex (.rdnode idx) s
    else
      let r := s.nodeAt (indexOf idx)
      .next { s with res0 := zext32 r.freq, res1 := r.res1, res2 := r.res2 }

end Sys2Proof.Machine
end

