-- ==== Sys2Proof/Machine/Dispatch.lean ====
section
/-!
DEFINITION. Which meaning each command has, one arm per constructor (30_encoding.md R94).
-/

namespace Sys2Proof.Machine

def exec (i : Instr) (s : State) : Host.Outcome State Fault Refusal :=
  match i with
  | .nop opd => Sys2Proof.Machine.execNop opd s
  | .clear opd => Sys2Proof.Machine.execClear opd s
  | .count sym => Sys2Proof.Machine.execCount sym s
  | .loadf sym => Sys2Proof.Machine.execLoadf sym s
  | .rdfreq sym => Sys2Proof.Machine.execRdfreq sym s
  | .build opd => Sys2Proof.Machine.execBuild opd s
  | .rdnode idx => Sys2Proof.Machine.execRdnode idx s
  | .gencode opd => Sys2Proof.Machine.execGencode opd s
  | .rdcode sym => Sys2Proof.Machine.execRdcode sym s
  | .emit sym => Sys2Proof.Machine.execEmit sym s
  | .rleput sym => Sys2Proof.Machine.execRleput sym s
  | .rleend opd => Sys2Proof.Machine.execRleend opd s

end Sys2Proof.Machine
end

