-- ==== Sys2Proof/Machine/Flags.lean ====
section
/-!
DEFINITION. The flags of STATUS and the words a host reads: PHASE and CAUSE codes, FAIL, DEGEN, RUNV
(10_state.md R27 to R33) and PARAM (R40).
-/

namespace Sys2Proof.Machine

/-- The 3-bit code of a phase (R28). -/
def Phase.code : Phase → BitVec 3
  | .idle => 0
  | .hcount => 1
  | .htree => 2
  | .hcode => 3
  | .rlerun => 4
  | .rledone => 5
  | .fault => 7

/-- The 4-bit code of a cause (60_exceptions.md R231). -/
def Cause.code : Cause → BitVec 4
  | .none => 0
  | .emptyInput => 1
  | .illegalCmd => 2
  | .badOperand => 3
  | .badPhase => 4
  | .countOverflow => 5
  | .noCode => 6
  | .badIndex => 7

/-- STATUS.FAIL: the predicate PHASE = 7, no storage of its own (R29). -/
def State.failFlag (s : State) : Bool := s.phase == .fault

/-- STATUS.DEGEN: the predicate NNODES = 1, no storage of its own (R30). -/
def State.degenFlag (s : State) : Bool := s.nnodes == 1

/-- STATUS (R27): PHASE in bits 2:0, FAIL bit 4, DEGEN bit 5, RUNV bit 6, the rest 0. -/
def State.statusWord (s : State) : Word :=
  0#25 ++ BitVec.ofBool s.runv ++ BitVec.ofBool s.degenFlag ++ BitVec.ofBool s.failFlag ++ 0#1 ++
    s.phase.code

/-- ERR (R32): CAUSE in bits 3:0. -/
def State.errWord (s : State) : Word := 0#28 ++ s.err.code

/-- PARAM (R40): SYMW in bits 4:0, CNTW in bits 13:8. -/
def State.paramWord (s : State) : Word :=
  0#18 ++ BitVec.ofNat 6 s.par.cntw ++ 0#3 ++ BitVec.ofNat 5 s.par.symw

end Sys2Proof.Machine
end

