-- ==== Sys2Proof/Machine/Bus.lean ====
section
/-!
DEFINITION. The register window (10_state.md R25) and the two access primitives of 20_memory.md
(R61, R62): what a read returns, what a write does, and which accesses are refused (R63, R64).
-/

namespace Sys2Proof.Machine

/-- The registers of the window (R25). -/
inductive Reg where
  | cmd | arg | status | err | errcmd | res0 | res1 | res2
  | nsyms | total | nnodes | root | rlesym | rlecnt | param
deriving DecidableEq, Repr

/-- The register at a byte offset (R25). Offset 0x3C is unmapped, an offset that is no multiple of 4
is misaligned, and from 0x40 on there is no window (R61, R63). -/
def Reg.at : Nat → Option Reg
  | 0x00 => some .cmd
  | 0x04 => some .arg
  | 0x08 => some .status
  | 0x0C => some .err
  | 0x10 => some .errcmd
  | 0x14 => some .res0
  | 0x18 => some .res1
  | 0x1C => some .res2
  | 0x20 => some .nsyms
  | 0x24 => some .total
  | 0x28 => some .nnodes
  | 0x2C => some .root
  | 0x30 => some .rlesym
  | 0x34 => some .rlecnt
  | 0x38 => some .param
  | _ => none

/-- The current value of a register as a host reads it; CMD holds nothing and has none (R26). -/
def readReg (s : State) : Reg → Option Word
  | .cmd => none
  | .arg => some s.arg
  | .status => some s.statusWord
  | .err => some s.errWord
  | .errcmd => some s.errcmd
  | .res0 => some s.res0
  | .res1 => some s.res1
  | .res2 => some s.res2
  | .nsyms => some (zext32 s.nsyms)
  | .total => some (zext32 s.total)
  | .nnodes => some (zext32 s.nnodes)
  | .root => some (zext32 s.root)
  | .rlesym => some (zext32 s.rlesym)
  | .rlecnt => some (zext32 s.rlecnt)
  | .param => some s.paramWord

/-- The register an access of `size` bytes reaches: 4 is the only width (R63). -/
def accessed (off size : Nat) : Option Reg := if size = 4 then Reg.at off else none

/-- The response to a host read (R61); where the window cannot serve it, ERROR and no data (R64). -/
def readResponse (off size : Nat) (s : State) : Response :=
  match (accessed off size).bind (readReg s) with
  | some w => .okayRead w
  | none => .error

/-- A word written to CMD: decode and dispatch (R95). -/
def runWord (w : Word) (s : State) : Host.Outcome State Fault Refusal :=
  match decode w with
  | .ok i => exec i s
  | .error .illegalCmd => raiseIllegal w s

/-- Answer the host once the transaction's effect is complete (R62, R71). -/
def answer (r : Response) : Host.Outcome State Fault Refusal → Host.Outcome State Fault Refusal
  | .next s => .next (s.respond r)
  | .fault f => .fault f
  | .refused f => .refused f

/-- One bus transaction, whole (R61, R62, R68). A command answers OKAY whether it succeeds, fails or
is ignored (R62, R247). -/
def serve (t : Transaction) (s : State) : Host.Outcome State Fault Refusal :=
  match t with
  | .read off size => .next (s.respond (readResponse off size s))
  | .write off size w =>
    match accessed off size with
    | some .cmd => answer .okayWrite (runWord w s)
    | some .arg => .next ({ s with arg := w }.respond .okayWrite)
    | _ => .next (s.respond .error)

/-- The reset input: the reset state at the instance's parameters (R270). What the outside world
still has in store is not the block's and stays. -/
def resetBlock (s : State) : State := { State.resetWith s.par with inputs := s.inputs }

/-- What one input does. A reset that comes while a transaction is being served abandons it, and the
state is the reset state (R272). -/
def takeInput (x : Input) (s : State) : Host.Outcome State Fault Refusal :=
  match x with
  | .bus t => serve t s
  | .reset => .next (resetBlock s)
  | .resetDuring _ => .next (resetBlock s)

end Sys2Proof.Machine
end

