-- ==== Sys2Proof/Machine/Step.lean ====
section
/-!
DEFINITION. One step of the machine: one input from outside, served whole, in the order of arrival
(20_memory.md R71). The block fetches nothing (10_state.md R21): its next command is the next write to
CMD.
-/

namespace Sys2Proof.Machine

/-- One step. With nothing in store the block waits and changes nothing (70_reset_and_hazards.md
R271). -/
def step (s : State) : Host.Outcome State Fault Refusal :=
  match s.inputs with
  | [] => .next s
  | x :: rest => takeInput x { s with inputs := rest }

/-- `s` with a write of the command word `w` to CMD as the next transaction to serve. -/
def State.withFetchWord (s : State) (_nbits w : Nat) : State :=
  { s with inputs := .bus (.write 0x00 4 (BitVec.ofNat 32 w)) :: s.inputs }

end Sys2Proof.Machine
end

