-- ==== Sys2Proof/WellFormed.lean ====
section
/-!
DEFINITION. Which commands have a legal operand field (30_encoding.md R91, R92, R97).
The machine makes the same check for itself when it executes a command (Machine/Operands.lean), and
raises BAD_OPERAND where it fails; Laws/Operands.lean proves the two agree.
-/

namespace Sys2Proof

/-- The operand field is legal for the command's format: 0 for format Z, a symbol below NSYM for
format S, anything for format N (R91). -/
def Instr.wellFormed (p : Params) : Instr → Bool
  | .nop opd => opd == 0
  | .clear opd => opd == 0
  | .count sym => decide (sym.toNat < p.nsym)
  | .loadf sym => decide (sym.toNat < p.nsym)
  | .rdfreq sym => decide (sym.toNat < p.nsym)
  | .build opd => opd == 0
  | .rdnode _ => true
  | .gencode opd => opd == 0
  | .rdcode sym => decide (sym.toNat < p.nsym)
  | .emit sym => decide (sym.toNat < p.nsym)
  | .rleput sym => decide (sym.toNat < p.nsym)
  | .rleend opd => opd == 0

end Sys2Proof
end

