-- ==== Sys2Proof/Safety.lean ====
section
/-!
DEFINITION. The terms claims are made in: the facts about a state that every step keeps (10_state.md
R44), the path that leads from a node to a node (42_code_table.md R172), and the execution of a
sequence of commands.
-/

namespace Sys2Proof.Machine

/-- The symbols with an entry in FREQ, in ascending order (R41, R143). -/
def State.present (s : State) : List Nat :=
  (List.range s.par.nsym).filter fun a => decide (s.freqAt a ≠ 0)

/-- Σ over s of FREQ[s] (R35). -/
def State.freqSum (s : State) : Nat := ((List.range s.par.nsym).map s.freqAt).sum

/-- The internal memories are in canonical form and list only addresses that exist, a leaf record holds
a symbol, and OUT holds characters of SYMW bits (R41, R42, R43, R45). -/
structure State.MemOk (s : State) : Prop where
  legal : s.par.Legal
  freq_wf : Memory.wf 0 s.freq = true
  node_wf : Memory.wf Node.zero s.node = true
  code_wf : Memory.wf [] s.code = true
  freq_in : ∀ e ∈ s.freq, e.1 < s.par.nsym
  node_in : ∀ e ∈ s.node, e.1 < s.par.maxnodes
  code_in : ∀ e ∈ s.code, e.1 < s.par.nsym
  node_sym : ∀ e ∈ s.node, e.2.sym < s.par.nsym
  rlesym_in : s.rlesym < s.par.nsym
  out_in : ∀ c ∈ s.out, c < s.par.nsym

/-- What holds of the data of a call that has come as far as phase `p` (R44). A failing command
changes none of it, so it outlives the change of PHASE to FAULT. -/
structure State.Call (p : Phase) (s : State) : Prop where
  mem : s.MemOk
  /-- Item 1. -/
  nsyms_eq : s.nsyms = s.present.length
  total_le : s.total ≤ s.par.cntmax
  /-- RUNV is 1 exactly while a run is open (R31). -/
  runv_iff : s.runv = true ↔ p = .rlerun
  /-- Item 2, with what the Huffman path leaves at 0. -/
  huffman : p = .idle ∨ p = .hcount ∨ p = .htree ∨ p = .hcode →
    s.total = s.freqSum ∧ s.rlesym = 0 ∧ s.rlecnt = 0
  /-- Item 3. -/
  rle : p = .rlerun ∨ p = .rledone → s.freq = [] ∧ 1 ≤ s.rlecnt ∧ s.rlecnt ≤ s.total
  /-- Items 3 and 4: no tree before BUILD. -/
  treeless : p ≠ .htree → p ≠ .hcode → s.nnodes = 0 ∧ s.root = 0 ∧ s.node = []
  /-- Items 4 and 6: no code before GENCODE. -/
  codeless : p ≠ .hcode → s.code = []
  /-- Item 5: NODE is the tree BUILD makes of FREQ. -/
  tree : p = .htree ∨ p = .hcode →
    1 ≤ s.nsyms ∧ buildTree s.par s.freq [] = { node := s.node, pq := [s.root], n := s.nnodes }
  /-- Item 6: CODE is the table GENCODE makes of NODE. -/
  table : p = .hcode → codeTable s.node s.root s.nnodes [] = some s.code
  /-- Item 7. -/
  fresh : p = .idle →
    s.freq = [] ∧ s.total = 0 ∧ s.res0 = 0 ∧ s.res1 = 0 ∧ s.res2 = 0
  silent : p = .idle ∨ p = .hcount ∨ p = .htree → s.out = []

/-- The invariant of the block (R44): outside FAULT the data is that of the current phase and no
failure is recorded; in FAULT it is that of the phase the failing command found, and a cause is
recorded (R32, R33, R44, R248). -/
def State.Inv (s : State) : Prop :=
  (s.phase ≠ .fault ∧ s.Call s.phase ∧ s.err = .none ∧ s.errcmd = 0) ∨
  (s.phase = .fault ∧ s.err ≠ .none ∧ ∃ p, p ≠ .fault ∧ s.Call p)

/-- The node reached from node `i` along the path `p`, bit 0 to the left child and bit 1 to the right
(R172); none where the path goes on below a leaf. -/
def follow (node : Memory Node) : Nat → Code → Option Nat
  | i, [] => some i
  | i, b :: p =>
    let r := Memory.read Node.zero i node
    if r.leaf then none else follow node (if b then r.right else r.left) p

/-- The commands of a list, one after the other, up to the first stop. -/
def execAll : List Instr → State → Host.Outcome State Fault Refusal
  | [], s => .next s
  | i :: is, s =>
    match exec i s with
    | .next t => execAll is t
    | .fault f => .fault f
    | .refused f => .refused f

end Sys2Proof.Machine
end

