-- ==== Sys2Proof/Certificates/Slice0/Obligations.lean ====
section
/-!
DEFINITION. The statements for the provers, from the numbered rules of spec/. A failure is written out
as R236 gives it: PHASE, ERR.CAUSE and ERRCMD change and nothing else.
-/

open Sys2Proof Sys2Proof.Machine

/-! ## Encoding and dispatch -/

/-- R90, R91, R94: every command is read back from its word, with every operand field, and a word that
decodes is the word of the command it decodes to. -/
def Obligations.EncodeDecodeRoundTrip : Prop :=
  (∀ i : Instr, decode (encode i) = .ok i) ∧ ∀ (w : Word) (i : Instr), decode w = .ok i → encode i = w

/-- R94, row by row: a word is command X, with bits 23:0 as its operand field, exactly when
`w & 0xFF000000 = match(X)`. -/
def Obligations.MatchAndMaskSelectCommand : Prop :=
  ∀ w : Word,
    let opd := w.extractLsb' 0 24
    (decode w = .ok (.nop opd) ↔ w &&& 0xFF000000#32 = 0x00000000#32) ∧
    (decode w = .ok (.clear opd) ↔ w &&& 0xFF000000#32 = 0x01000000#32) ∧
    (decode w = .ok (.count opd) ↔ w &&& 0xFF000000#32 = 0x10000000#32) ∧
    (decode w = .ok (.loadf opd) ↔ w &&& 0xFF000000#32 = 0x11000000#32) ∧
    (decode w = .ok (.rdfreq opd) ↔ w &&& 0xFF000000#32 = 0x12000000#32) ∧
    (decode w = .ok (.build opd) ↔ w &&& 0xFF000000#32 = 0x20000000#32) ∧
    (decode w = .ok (.rdnode opd) ↔ w &&& 0xFF000000#32 = 0x21000000#32) ∧
    (decode w = .ok (.gencode opd) ↔ w &&& 0xFF000000#32 = 0x30000000#32) ∧
    (decode w = .ok (.rdcode opd) ↔ w &&& 0xFF000000#32 = 0x32000000#32) ∧
    (decode w = .ok (.emit opd) ↔ w &&& 0xFF000000#32 = 0x40000000#32) ∧
    (decode w = .ok (.rleput opd) ↔ w &&& 0xFF000000#32 = 0x50000000#32) ∧
    (decode w = .ok (.rleend opd) ↔ w &&& 0xFF000000#32 = 0x51000000#32)

/-- Words the spec writes out (R121, R123, R124, R141, R152, R171, R176, R191, R202, R203, R220, R221,
95_test_vectors.md) decode to the commands it names. -/
def Obligations.WordsOfTheSpecDecode : Prop :=
  decode 0x00000000#32 = .ok (.nop 0) ∧ decode 0x01000000#32 = .ok (.clear 0) ∧
  decode 0x10000061#32 = .ok (.count 0x61) ∧ decode 0x11000061#32 = .ok (.loadf 0x61) ∧
  decode 0x12000062#32 = .ok (.rdfreq 0x62) ∧ decode 0x20000000#32 = .ok (.build 0) ∧
  decode 0x21000003#32 = .ok (.rdnode 3) ∧ decode 0x30000000#32 = .ok (.gencode 0) ∧
  decode 0x32000063#32 = .ok (.rdcode 0x63) ∧ decode 0x40000061#32 = .ok (.emit 0x61) ∧
  decode 0x50000062#32 = .ok (.rleput 0x62) ∧ decode 0x51000000#32 = .ok (.rleend 0) ∧
  decode 0x31000000#32 = .error .illegalCmd ∧ decode 0x99000000#32 = .error .illegalCmd

/-- R62, R68, R71: when the next transaction writes a word to CMD that decodes to `i`, the step is
`exec i` on the state with that transaction served, and the host is answered OKAY. A word placed by
`withFetchWord` is that next transaction. -/
def Obligations.StepRunsDecodedCommand : Prop :=
  ∀ (s : State) (w : Word) (i : Instr), decode w = .ok i →
    (∀ rest, s.inputs = .bus (.write 0x00 4 w) :: rest →
      (∀ t, exec i { s with inputs := rest } = .next t →
        step s = .next { t with response := some .okayWrite }) ∧
      ∀ f, exec i { s with inputs := rest } = .fault f → step s = .fault f) ∧
    ∀ t, exec i s = .next t →
      step (s.withFetchWord 32 w.toNat) = .next { t with response := some .okayWrite }

/-- R96: the opcodes other than the twelve are the 244 listed (ranges given by start and length), and a
word with one of them fails with ILLEGAL_CMD outside FAULT, whatever its operand field. -/
def Obligations.ReservedOpcodeFails : Prop :=
  let reserved := (List.range 256).filter fun n => decide (n ∉ ([0x00, 0x01, 0x10, 0x11, 0x12, 0x20, 0x21,
    0x30, 0x32, 0x40, 0x50, 0x51] : List Nat))
  reserved.length = 244 ∧
  reserved = List.range' 0x02 14 ++ List.range' 0x13 13 ++ List.range' 0x22 14 ++ [0x31] ++
    List.range' 0x33 13 ++ List.range' 0x41 15 ++ List.range' 0x52 174 ∧
  ∀ n ∈ reserved, ∀ (opd : Opd) (s : State), s.phase ≠ .fault →
    runWord (BitVec.ofNat 8 n ++ opd) s =
      .next { s with phase := .fault, err := .illegalCmd, errcmd := BitVec.ofNat 8 n ++ opd }

/-- R97: outside FAULT a nonzero operand field of a format-Z command, a symbol operand at or above
NSYM, and, where LOADF is legal, an ARG with a bit at or above CNTW fail with BAD_OPERAND. -/
def Obligations.IllegalOperandFails : Prop :=
  ∀ (s : State) (opd : Opd), s.phase ≠ .fault →
    (opd ≠ 0 → ∀ op ∈ ([0x00#8, 0x01#8, 0x20#8, 0x30#8, 0x51#8] : List Op),
      runWord (op ++ opd) s =
        .next { s with phase := .fault, err := .badOperand, errcmd := op ++ opd }) ∧
    (s.par.nsym ≤ opd.toNat → ∀ op ∈ ([0x10#8, 0x11#8, 0x12#8, 0x32#8, 0x40#8, 0x50#8] : List Op),
      runWord (op ++ opd) s =
        .next { s with phase := .fault, err := .badOperand, errcmd := op ++ opd }) ∧
    (opd.toNat < s.par.nsym → s.phase = .idle ∨ s.phase = .hcount →
      (∃ j, s.par.cntw ≤ j ∧ s.arg.getLsbD j = true) →
      runWord (0x11#8 ++ opd) s =
        .next { s with phase := .fault, err := .badOperand, errcmd := 0x11#8 ++ opd })

/-- The table of R240: a command with a legal operand fails with BAD_PHASE exactly in the phases marked
BP, an illegal operand field is reported first, FAULT ignores everything but the word CLEAR, and in IDLE
BUILD and RLEEND always fail with EMPTY_INPUT. -/
def Obligations.PhaseTable : Prop :=
  ∀ (i : Instr) (s : State),
    (i.wellFormed s.par = true → s.phase ≠ .fault →
      (exec i s = .next { s with phase := .fault, err := .badPhase, errcmd := encode i } ↔
        s.phase ∈ (match i with
          | .nop _ | .clear _ | .rdfreq _ => ([] : List Phase)
          | .count _ | .loadf _ | .build _ => [.htree, .hcode, .rlerun, .rledone]
          | .rdnode _ => [.idle, .hcount, .rlerun, .rledone]
          | .gencode _ => [.idle, .hcount, .hcode, .rlerun, .rledone]
          | .rdcode _ | .emit _ => [.idle, .hcount, .htree, .rlerun, .rledone]
          | .rleput _ | .rleend _ => [.hcount, .htree, .hcode, .rledone]))) ∧
    (i.wellFormed s.par = false → s.phase ≠ .fault →
      exec i s = .next { s with phase := .fault, err := .badOperand, errcmd := encode i }) ∧
    (s.phase = .fault → i ≠ .clear 0 → exec i s = .next s) ∧
    (s.phase = .fault → exec (.clear 0) s =
      .next { State.resetWith s.par with inputs := s.inputs, response := s.response }) ∧
    (s.Inv → s.phase = .idle →
      exec (.build 0) s =
        .next { s with phase := .fault, err := .emptyInput, errcmd := 0x20000000#32 } ∧
      exec (.rleend 0) s =
        .next { s with phase := .fault, err := .emptyInput, errcmd := 0x51000000#32 })

/-- R243: in FAULT every word written to CMD but 0x01000000 changes nothing, while register reads and
writes to ARG work as in any phase. -/
def Obligations.FaultIgnoresCommands : Prop :=
  ∀ s : State, s.phase = .fault →
    (∀ w : Word, w ≠ 0x01000000#32 →
      serve (.write 0x00 4 w) s = .next { s with response := some .okayWrite }) ∧
    (∀ (off : Nat) (r : Reg) (d : Word), Reg.at off = some r → readReg s r = some d →
      serve (.read off 4) s = .next { s with response := some (.okayRead d) }) ∧
    ∀ v : Word, serve (.write 0x04 4 v) s = .next { s with arg := v, response := some .okayWrite }

/-- R242: one command reports at most one cause, the first that applies in the order FAULT,
ILLEGAL_CMD, BAD_OPERAND of the operand field, BAD_PHASE, the command's own tests. -/
def Obligations.FirstApplicableCauseWins : Prop :=
  ∀ (w : Word) (s t : State), runWord w s = .next t →
    (s.phase = .fault → w ≠ 0x01000000#32 → t = s) ∧
    (s.phase ≠ .fault →
      (decode w = .error .illegalCmd → t.err = .illegalCmd) ∧
      ∀ i, decode w = .ok i →
        (i.wellFormed s.par = false → t.err = .badOperand) ∧
        (i.wellFormed s.par = true → legalIn s.phase i = false → t.err = .badPhase) ∧
        (i.wellFormed s.par = true → legalIn s.phase i = true → t.phase = .fault →
          match i with
          | .nop _ | .clear _ | .rdfreq _ => False
          | .count _ | .rleput _ => t.err = .countOverflow
          | .loadf _ => t.err = if 2 ^ s.par.cntw ≤ s.arg.toNat then .badOperand else .countOverflow
          | .build _ | .rleend _ => t.err = .emptyInput
          | .emit _ => t.err = .noCode
          | .rdnode _ | .rdcode _ => t.err = .badIndex
          | .gencode _ => False))

/-- R236, R248: a command that fails changes PHASE to FAULT, ERR.CAUSE to its cause and ERRCMD to its
word, and nothing else. -/
def Obligations.FailureChangesOnlyFailureRegisters : Prop :=
  ∀ (w : Word) (s t : State), runWord w s = .next t → s.phase ≠ .fault → t.phase = .fault →
    t.err ≠ .none ∧ t = { s with phase := .fault, err := t.err, errcmd := w }

/-- R241: the phase after a successful command, and the phase graph of the reachable states. -/
def Obligations.PhaseAfterCommand : Prop :=
  ∀ (i : Instr) (s t : State), exec i s = .next t →
    (s.phase ≠ .fault → t.phase = .fault ∨ t.phase = (match i with
      | .nop _ | .rdfreq _ | .rdnode _ | .rdcode _ | .emit _ => s.phase
      | .clear _ => .idle
      | .count _ | .loadf _ => .hcount
      | .build _ => .htree
      | .gencode _ => .hcode
      | .rleput _ => .rlerun
      | .rleend _ => .rledone)) ∧
    (s.Inv → t.phase = s.phase ∨ t.phase = .fault ∨ (i = .clear 0 ∧ t.phase = .idle) ∨
      (s.phase, t.phase) ∈ ([(.idle, .hcount), (.hcount, .htree), (.htree, .hcode), (.idle, .rlerun),
        (.rlerun, .rledone)] : List (Phase × Phase)))

/-! ## Reset, CLEAR, NOP -/

/-- R49: after reset, at any parameters, every item of the state has the value of the table, and CLEAR
changes nothing; the reference parameters are those of R6. -/
def Obligations.ResetValues : Prop :=
  State.reset = State.resetWith { symw := 8, cntw := 32 } ∧
  State.reset.paramWord = 0x00002008#32 ∧
  ∀ p : Params, let s := State.resetWith p
    s.par = p ∧ s.arg = 0 ∧ s.res0 = 0 ∧ s.res1 = 0 ∧ s.res2 = 0 ∧
    s.statusWord = 0 ∧ s.phase = .idle ∧ s.failFlag = false ∧ s.degenFlag = false ∧ s.runv = false ∧
    s.errWord = 0 ∧ s.errcmd = 0 ∧
    s.nsyms = 0 ∧ s.total = 0 ∧ s.nnodes = 0 ∧ s.root = 0 ∧ s.rlesym = 0 ∧ s.rlecnt = 0 ∧
    (∀ a, s.freqAt a = 0) ∧
    (∀ j, s.nodeAt j = { freq := 0, leaf := false, sym := 0, left := 0, right := 0 }) ∧
    (∀ a, s.codeAt a = []) ∧ s.out = [] ∧
    exec (.clear 0) s = .next s

/-- R221: CLEAR in any phase, FAULT included, leaves the reset state, item for item; with a nonzero
operand field it fails, and in FAULT is ignored. -/
def Obligations.ClearLeavesResetState : Prop :=
  ∀ s : State,
    exec (.clear 0) s =
      .next { State.resetWith s.par with inputs := s.inputs, response := s.response } ∧
    ∀ opd : Opd, opd ≠ 0 →
      (s.phase ≠ .fault → exec (.clear opd) s =
        .next { s with phase := .fault, err := .badOperand, errcmd := encode (.clear opd) }) ∧
      (s.phase = .fault → exec (.clear opd) s = .next s)

/-- R220: NOP changes nothing in any phase; a nonzero operand field is a failure outside FAULT. -/
def Obligations.NopChangesNothing : Prop :=
  ∀ s : State, exec (.nop 0) s = .next s ∧
    ∀ opd : Opd, opd ≠ 0 → s.phase ≠ .fault → exec (.nop opd) s =
      .next { s with phase := .fault, err := .badOperand, errcmd := encode (.nop opd) }

/-- R223: a sequence that begins with CLEAR ends in the same state, OUT included, whatever ran on the
instance before it. -/
def Obligations.CallsAreIsolated : Prop :=
  ∀ (s₁ s₂ : State) (rest : List Input) (n : Nat), s₁.par = s₂.par →
    s₁.inputs = .bus (.write 0x00 4 0x01000000#32) :: rest →
    s₂.inputs = .bus (.write 0x00 4 0x01000000#32) :: rest →
    Sys2Proof.core.run (n + 1) s₁ = Sys2Proof.core.run (n + 1) s₂

/-- R270, R272: the reset input gives the reset state, and so does a reset while a transaction is being
served, of which nothing remains. -/
def Obligations.ResetInputGivesResetState : Prop :=
  ∀ (s : State) (rest : List Input),
    (s.inputs = .reset :: rest → step s = .next { State.resetWith s.par with inputs := rest }) ∧
    ∀ x, s.inputs = .resetDuring x :: rest → step s = .next { State.resetWith s.par with inputs := rest }

/-- R244: the only way out of FAULT is CLEAR or reset, and both discard the call. -/
def Obligations.OnlyClearOrResetLeavesFault : Prop :=
  ∀ s t : State, step s = .next t → s.phase = .fault → t.phase ≠ .fault →
    ∃ rest, (s.inputs = .bus (.write 0x00 4 0x01000000#32) :: rest ∨ s.inputs = .reset :: rest ∨
        ∃ x, s.inputs = .resetDuring x :: rest) ∧
      t = { State.resetWith s.par with inputs := rest, response := t.response }

/-- R271: with no host transaction the block changes no state. -/
def Obligations.IdleBlockChangesNothing : Prop :=
  ∀ s : State, s.inputs = [] → step s = .next s

/-! ## The register window -/

/-- R61: what a host read answers at every offset, with no state change. -/
def Obligations.ReadAnswersRegister : Prop :=
  ∀ (s : State) (off size : Nat),
    serve (.read 0x04 4) s = .next { s with response := some (.okayRead s.arg) } ∧
    serve (.read 0x08 4) s = .next { s with response := some (.okayRead s.statusWord) } ∧
    serve (.read 0x0C 4) s = .next { s with response := some (.okayRead s.errWord) } ∧
    serve (.read 0x10 4) s = .next { s with response := some (.okayRead s.errcmd) } ∧
    serve (.read 0x14 4) s = .next { s with response := some (.okayRead s.res0) } ∧
    serve (.read 0x18 4) s = .next { s with response := some (.okayRead s.res1) } ∧
    serve (.read 0x1C 4) s = .next { s with response := some (.okayRead s.res2) } ∧
    serve (.read 0x20 4) s = .next { s with response := some (.okayRead (BitVec.ofNat 32 s.nsyms)) } ∧
    serve (.read 0x24 4) s = .next { s with response := some (.okayRead (BitVec.ofNat 32 s.total)) } ∧
    serve (.read 0x28 4) s = .next { s with response := some (.okayRead (BitVec.ofNat 32 s.nnodes)) } ∧
    serve (.read 0x2C 4) s = .next { s with response := some (.okayRead (BitVec.ofNat 32 s.root)) } ∧
    serve (.read 0x30 4) s = .next { s with response := some (.okayRead (BitVec.ofNat 32 s.rlesym)) } ∧
    serve (.read 0x34 4) s = .next { s with response := some (.okayRead (BitVec.ofNat 32 s.rlecnt)) } ∧
    serve (.read 0x38 4) s = .next { s with response := some (.okayRead s.paramWord) } ∧
    (size ≠ 4 ∨ off % 4 ≠ 0 ∨ off = 0x00 ∨ 0x3C ≤ off →
      serve (.read off size) s = .next { s with response := some .error })

/-- R62: a write to ARG keeps all 32 bits, a write to CMD executes the word and answers OKAY whatever
comes of it, and every other write is refused with no state change. -/
def Obligations.WriteReachesArgOrCommand : Prop :=
  ∀ (s : State) (v : Word) (off size : Nat),
    serve (.write 0x04 4 v) s = .next { s with arg := v, response := some .okayWrite } ∧
    (∀ t, runWord v s = .next t →
      serve (.write 0x00 4 v) s = .next { t with response := some .okayWrite }) ∧
    (size ≠ 4 ∨ (off ≠ 0x00 ∧ off ≠ 0x04) →
      serve (.write off size v) s = .next { s with response := some .error })

/-- R247: a transaction answered ERROR changes no state, FAIL and ERR included, and a write to CMD is
never answered ERROR. -/
def Obligations.BusErrorIsNoFailure : Prop :=
  ∀ (x : Transaction) (s t : State), serve x s = .next t →
    (t.response = some .error → t = { s with response := some .error }) ∧
    ∀ w, x = .write 0x00 4 w → t.response = some .okayWrite

/-- R27 to R32: the fields of STATUS and of ERR, and the codes of phases and causes. -/
def Obligations.StatusAndErrFields : Prop :=
  ∀ s : State,
    (s.statusWord.extractLsb' 0 3).toNat = (match s.phase with
      | .idle => 0 | .hcount => 1 | .htree => 2 | .hcode => 3 | .rlerun => 4 | .rledone => 5
      | .fault => 7) ∧
    (s.statusWord.getLsbD 4 = true ↔ s.phase = .fault) ∧
    (s.statusWord.getLsbD 5 = true ↔ s.nnodes = 1) ∧
    s.statusWord.getLsbD 6 = s.runv ∧
    (∀ j, j = 3 ∨ 7 ≤ j → s.statusWord.getLsbD j = false) ∧
    s.errWord.toNat = (match s.err with
      | .none => 0 | .emptyInput => 1 | .illegalCmd => 2 | .badOperand => 3 | .badPhase => 4
      | .countOverflow => 5 | .noCode => 6 | .badIndex => 7)

/-- R40: PARAM reports SYMW and CNTW, reads 0x00002008 at the reference parameters, and no step
changes it. -/
def Obligations.ParamIsConstant : Prop :=
  (∀ s : State, s.par.Legal →
    (s.paramWord.extractLsb' 0 5).toNat = s.par.symw ∧ (s.paramWord.extractLsb' 8 6).toNat = s.par.cntw ∧
    ∀ j, (5 ≤ j ∧ j ≤ 7) ∨ 14 ≤ j → s.paramWord.getLsbD j = false) ∧
  State.reset.paramWord = 0x00002008#32 ∧
  ∀ s t : State, step s = .next t → t.paramWord = s.paramWord

/-- R22: ARG is written by the host and by CLEAR alone, and read by LOADF and RDCODE alone. -/
def Obligations.ArgIsTheHostsOperand : Prop :=
  (∀ (i : Instr) (s t : State), exec i s = .next t → t.arg = s.arg ∨ (i = .clear 0 ∧ t.arg = 0)) ∧
  (∀ (i : Instr) (s t : State) (v : Word), exec i s = .next t →
    (∀ a, i ≠ .loadf a) → (∀ a, i ≠ .rdcode a) → i ≠ .clear 0 →
    exec i { s with arg := v } = .next { t with arg := v }) ∧
  (∀ (s : State) (v : Word), exec (.clear 0) { s with arg := v } = exec (.clear 0) s) ∧
  (∀ (s : State) (v : Word),
    serve (.write 0x04 4 v) s = .next { s with arg := v, response := some .okayWrite } ∧
    serve (.read 0x04 4) s = .next { s with response := some (.okayRead s.arg) }) ∧
  State.reset.arg = 0

/-- R23: RES0 to RES2 are written by the read-back commands and cleared by CLEAR alone; a failing
command writes none of them; the host reads them without side effect and cannot write them. -/
def Obligations.ResultRegisterWriters : Prop :=
  (∀ (i : Instr) (s t : State), exec i s = .next t →
    (t.res0 = s.res0 ∨ (i = .clear 0 ∧ t.res0 = 0) ∨ (∃ a, i = .rdfreq a) ∨ (∃ a, i = .rdnode a) ∨
      ∃ a, i = .rdcode a) ∧
    (t.res1 = s.res1 ∨ (i = .clear 0 ∧ t.res1 = 0) ∨ (∃ a, i = .rdnode a) ∨ ∃ a, i = .rdcode a) ∧
    (t.res2 = s.res2 ∨ (i = .clear 0 ∧ t.res2 = 0) ∨ ∃ a, i = .rdnode a) ∧
    (i = .clear 0 → t.res0 = 0 ∧ t.res1 = 0 ∧ t.res2 = 0) ∧
    (t.phase = .fault → t.res0 = s.res0 ∧ t.res1 = s.res1 ∧ t.res2 = s.res2)) ∧
  (∀ (s : State) (v : Word),
    serve (.read 0x14 4) s = .next { s with response := some (.okayRead s.res0) } ∧
    serve (.read 0x18 4) s = .next { s with response := some (.okayRead s.res1) } ∧
    serve (.read 0x1C 4) s = .next { s with response := some (.okayRead s.res2) } ∧
    ∀ off ∈ ([0x14, 0x18, 0x1C] : List Nat),
      serve (.write off 4 v) s = .next { s with response := some .error }) ∧
  State.reset.res0 = 0 ∧ State.reset.res1 = 0 ∧ State.reset.res2 = 0

/-- R70, R45: which commands write FREQ, NODE, CODE, and OUT; every other command leaves every entry
as it was. -/
def Obligations.InternalMemoryWriters : Prop :=
  ∀ (i : Instr) (s t : State), exec i s = .next t → i ≠ .clear 0 →
    ((∀ a, i ≠ .count a) → (∀ a, i ≠ .loadf a) → ∀ b, t.freqAt b = s.freqAt b) ∧
    (i ≠ .build 0 → ∀ j, t.nodeAt j = s.nodeAt j) ∧
    (i ≠ .gencode 0 → ∀ b, t.codeAt b = s.codeAt b) ∧
    (∃ cs, t.out = s.out ++ cs) ∧
    ((∀ a, i ≠ .emit a) → (∀ a, i ≠ .rleput a) → i ≠ .rleend 0 → t.out = s.out)

/-! ## The frequency table -/

/-- R121: COUNT. -/
def Obligations.CountAddsOneOccurrence : Prop :=
  ∀ (s : State) (a : Opd), s.phase ≠ .fault →
    (a.toNat < s.par.nsym → s.phase = .idle ∨ s.phase = .hcount → s.total ≠ s.par.cntmax →
      ∃ t, exec (.count a) s = .next t ∧
        t.freqAt a.toNat = s.freqAt a.toNat + 1 ∧
        (∀ b, b ≠ a.toNat → t.freqAt b = s.freqAt b) ∧
        t = { s with
              freq := t.freq
              nsyms := if s.freqAt a.toNat = 0 then s.nsyms + 1 else s.nsyms
              total := s.total + 1
              phase := .hcount }) ∧
    (a.toNat < s.par.nsym → s.phase = .idle ∨ s.phase = .hcount → s.total = s.par.cntmax →
      exec (.count a) s =
        .next { s with phase := .fault, err := .countOverflow, errcmd := encode (.count a) }) ∧
    (a.toNat < s.par.nsym → s.phase ≠ .idle → s.phase ≠ .hcount → exec (.count a) s =
      .next { s with phase := .fault, err := .badPhase, errcmd := encode (.count a) }) ∧
    (s.par.nsym ≤ a.toNat → exec (.count a) s =
      .next { s with phase := .fault, err := .badOperand, errcmd := encode (.count a) })

/-- R121, corner case: the order in which symbols are counted makes no difference. -/
def Obligations.CountingOrderIsIrrelevant : Prop :=
  ∀ (s : State) (a b : Opd) (t u : State), s.MemOk →
    execAll [.count a, .count b] s = .next t → execAll [.count b, .count a] s = .next u →
    t.phase = .hcount → u.phase = .hcount → t = u

/-- R123: LOADF. The rule's remark that TOTAL ≥ old always, and that a nonzero entry is counted in NSYMS, is
a premise of the new sum: states without it are reached by no run (R44). -/
def Obligations.LoadfSetsEntry : Prop :=
  ∀ (s : State) (a : Opd), s.phase ≠ .fault →
    (a.toNat < s.par.nsym → s.phase = .idle ∨ s.phase = .hcount →
      (2 ^ s.par.cntw ≤ s.arg.toNat → exec (.loadf a) s =
        .next { s with phase := .fault, err := .badOperand, errcmd := encode (.loadf a) }) ∧
      (s.arg.toNat < 2 ^ s.par.cntw → s.freqAt a.toNat ≤ s.total →
        (s.freqAt a.toNat ≠ 0 → 1 ≤ s.nsyms) →
        (s.par.cntmax < s.total - s.freqAt a.toNat + s.arg.toNat → exec (.loadf a) s =
          .next { s with phase := .fault, err := .countOverflow, errcmd := encode (.loadf a) }) ∧
        (s.total - s.freqAt a.toNat + s.arg.toNat ≤ s.par.cntmax →
          ∃ t, exec (.loadf a) s = .next t ∧
            t.freqAt a.toNat = s.arg.toNat ∧
            (∀ b, b ≠ a.toNat → t.freqAt b = s.freqAt b) ∧
            t = { s with
                  freq := t.freq
                  total := s.total - s.freqAt a.toNat + s.arg.toNat
                  nsyms := s.nsyms - (if s.freqAt a.toNat ≠ 0 then 1 else 0) +
                    (if s.arg.toNat ≠ 0 then 1 else 0)
                  phase := .hcount }))) ∧
    (a.toNat < s.par.nsym → s.phase ≠ .idle → s.phase ≠ .hcount → exec (.loadf a) s =
      .next { s with phase := .fault, err := .badPhase, errcmd := encode (.loadf a) }) ∧
    (s.par.nsym ≤ a.toNat → exec (.loadf a) s =
      .next { s with phase := .fault, err := .badOperand, errcmd := encode (.loadf a) })

/-- R124: RDFREQ. -/
def Obligations.RdfreqReadsEntry : Prop :=
  ∀ (s : State) (a : Opd), s.phase ≠ .fault →
    (a.toNat < s.par.nsym → exec (.rdfreq a) s =
      .next { s with res0 := BitVec.ofNat 32 (s.freqAt a.toNat) }) ∧
    (s.par.nsym ≤ a.toNat → exec (.rdfreq a) s =
      .next { s with phase := .fault, err := .badOperand, errcmd := encode (.rdfreq a) })

/-- R122: in IDLE and HCOUNT no count exceeds TOTAL, so the increment of COUNT never wraps, and NSYMS
does not exceed NSYM. -/
def Obligations.CountsNeverWrap : Prop :=
  ∀ s : State, s.Inv → s.phase = .idle ∨ s.phase = .hcount →
    (∀ a, a < s.par.nsym → s.freqAt a ≤ s.total) ∧ s.total ≤ s.par.cntmax ∧
    (s.total ≠ s.par.cntmax → ∀ a, a < s.par.nsym → s.freqAt a + 1 ≤ s.par.cntmax) ∧
    s.nsyms ≤ s.par.nsym

/-! ## The tree -/

/-- R142: BUILD of an empty table. -/
def Obligations.BuildOfEmptyTableFails : Prop :=
  ∀ s : State, s.phase = .idle ∨ s.phase = .hcount → s.nsyms = 0 →
    exec (.build 0) s = .next { s with phase := .fault, err := .emptyInput, errcmd := 0x20000000#32 }

/-- R141, R146, R150 items 1 and 2: BUILD of a table with an entry completes; ROOT is the last of the
2·L − 1 nodes, and nothing else changes but NODE below NNODES and PHASE. The clause that the NODE records
at and above NNODES stay as they were is the model's choice, DEDUCED from R70 (BUILD writes
NODE[0 … NNODES−1]): notes/assumptions/14.md; R42 and U21 let a model hold any value there. -/
def Obligations.BuildEndsWithOneRoot : Prop :=
  ∀ s : State, s.phase = .idle ∨ s.phase = .hcount → s.nsyms ≠ 0 → s.present ≠ [] →
    ∃ t, exec (.build 0) s = .next t ∧
      t.nnodes + 1 = 2 * s.present.length ∧ t.root + 1 = t.nnodes ∧
      (∀ j, t.nnodes ≤ j → t.nodeAt j = s.nodeAt j) ∧
      t = { s with node := t.node, nnodes := t.nnodes, root := t.root, phase := .htree }

/-- R143: the leaves BUILD makes. -/
def Obligations.LeavesAreInSymbolOrder : Prop :=
  ∀ s t : State, exec (.build 0) s = .next t → t.phase = .htree →
    s.present.Pairwise (· < ·) ∧
    (∀ a, a ∈ s.present ↔ a < s.par.nsym ∧ s.freqAt a ≠ 0) ∧
    (∀ k (h : k < s.present.length), t.nodeAt k =
      { freq := s.freqAt s.present[k], leaf := true, sym := s.present[k], left := 0, right := 0 }) ∧
    ∀ k, s.present.length ≤ k → k < t.nnodes → (t.nodeAt k).leaf = false

/-- R144: popmin takes the index with the least (frequency, index) pair, and it alone. -/
def Obligations.PopminTakesTheLeast : Prop :=
  ∀ (node : Memory Node) (pq : List Nat),
    (pq = [] → popmin node pq = none) ∧
    (pq ≠ [] → ∃ m, popmin node pq = some (m, pq.erase m) ∧ m ∈ pq ∧
      ∀ j ∈ pq, j ≠ m →
        (Memory.read Node.zero m node).freq < (Memory.read Node.zero j node).freq ∨
        ((Memory.read Node.zero m node).freq = (Memory.read Node.zero j node).freq ∧ m < j))

/-- R145: every internal node BUILD makes is the merge of the two least nodes, by (frequency, index),
among those that had no parent yet: the least is its left child and the next its right child. -/
def Obligations.MergesJoinTheTwoLeast : Prop :=
  ∀ s t : State, exec (.build 0) s = .next t → t.phase = .htree →
    ∀ k, s.present.length ≤ k → k < t.nnodes →
      let orphan := fun j => j < k ∧ ∀ m, s.present.length ≤ m → m < k →
        (t.nodeAt m).left ≠ j ∧ (t.nodeAt m).right ≠ j
      let first := fun i j => (t.nodeAt i).freq < (t.nodeAt j).freq ∨
        ((t.nodeAt i).freq = (t.nodeAt j).freq ∧ i < j)
      ∃ a b, a ≠ b ∧ orphan a ∧ orphan b ∧
        (∀ j, orphan j → j ≠ a → first a j) ∧ (∀ j, orphan j → j ≠ a → j ≠ b → first b j) ∧
        t.nodeAt k = { freq := (t.nodeAt a).freq + (t.nodeAt b).freq, leaf := false, sym := 0,
                       left := a, right := b }

/-- R147: the one-entry table. -/
def Obligations.OneEntryGivesOneLeaf : Prop :=
  ∀ (s : State) (a : Nat), s.phase = .idle ∨ s.phase = .hcount → s.nsyms ≠ 0 → s.present = [a] →
    ∃ t, exec (.build 0) s = .next t ∧ t.root = 0 ∧ t.nnodes = 1 ∧ t.degenFlag = true ∧
      t.nodeAt 0 = { freq := s.freqAt a, leaf := true, sym := a, left := 0, right := 0 }

/-- R150 items 3, 4 and 7: children lie below their parent, every node but the root is the child of
exactly one node, the root's frequency is the sum of all counts, and internal frequencies do not
decrease. -/
def Obligations.BuiltTreeIsATree : Prop :=
  ∀ s t : State, exec (.build 0) s = .next t → t.phase = .htree →
    (∀ k, s.present.length ≤ k → k < t.nnodes →
      (t.nodeAt k).left < k ∧ (t.nodeAt k).right < k ∧ (t.nodeAt k).left ≠ (t.nodeAt k).right ∧
      (t.nodeAt k).freq = (t.nodeAt (t.nodeAt k).left).freq + (t.nodeAt (t.nodeAt k).right).freq) ∧
    (∀ j, j < t.root → ∃! k, s.present.length ≤ k ∧ k < t.nnodes ∧
      ((t.nodeAt k).left = j ∨ (t.nodeAt k).right = j)) ∧
    (t.nodeAt t.root).freq = s.freqSum ∧
    ∀ k, s.present.length ≤ k → k + 1 < t.nnodes → (t.nodeAt k).freq ≤ (t.nodeAt (k + 1)).freq

/-- R152: RDNODE. -/
def Obligations.RdnodeReadsRecord : Prop :=
  ∀ (s : State) (x : Opd), s.phase ≠ .fault →
    (s.phase = .htree ∨ s.phase = .hcode →
      (x.toNat < s.nnodes → exec (.rdnode x) s = .next
        { s with
          res0 := BitVec.ofNat 32 (s.nodeAt x.toNat).freq
          res1 := if (s.nodeAt x.toNat).leaf then 1#1 ++ 0#7 ++ BitVec.ofNat 24 (s.nodeAt x.toNat).sym
            else 0#1 ++ 0#7 ++ BitVec.ofNat 24 (s.nodeAt x.toNat).left
          res2 := if (s.nodeAt x.toNat).leaf then 0 else BitVec.ofNat 32 (s.nodeAt x.toNat).right }) ∧
      (s.nnodes ≤ x.toNat → exec (.rdnode x) s =
        .next { s with phase := .fault, err := .badIndex, errcmd := encode (.rdnode x) })) ∧
    (s.phase ≠ .htree → s.phase ≠ .hcode → exec (.rdnode x) s =
      .next { s with phase := .fault, err := .badPhase, errcmd := encode (.rdnode x) })

/-! ## The code table -/

/-- R172: GENCODE on a tree of two leaves or more: the code of a symbol is the path from the root to
its leaf, 0 to the left and 1 to the right, and a symbol without a count gets none. -/
def Obligations.GencodeWritesPaths : Prop :=
  ∀ s : State, s.Inv → s.phase = .htree → 2 ≤ s.nsyms →
    ∃ t, exec (.gencode 0) s = .next t ∧
      (∀ a p, p ≠ [] → (t.codeAt a = p ↔ ∃ j, follow s.node s.root p = some j ∧
        (s.nodeAt j).leaf = true ∧ (s.nodeAt j).sym = a)) ∧
      (∀ a, t.codeAt a ≠ [] ↔ a ∈ s.present) ∧
      t = { s with code := t.code, phase := .hcode }

/-- R173: GENCODE on the one-leaf tree gives the only symbol the code "0". -/
def Obligations.OnlySymbolGetsCodeZero : Prop :=
  ∀ s : State, s.Inv → s.phase = .htree → s.nsyms = 1 →
    ∃ a t, s.present = [a] ∧ exec (.gencode 0) s = .next t ∧ t.codeAt a = [false] ∧
      (∀ b, b ≠ a → t.codeAt b = []) ∧ t = { s with code := t.code, phase := .hcode }

/-- R175 items 1 to 3. -/
def Obligations.CodesArePrefixFree : Prop :=
  ∀ s : State, s.Inv → s.phase = .hcode →
    (∀ a, s.codeAt a ≠ [] ↔ a < s.par.nsym ∧ s.freqAt a ≠ 0) ∧
    (∀ a, (s.codeAt a).length ≤ max 1 (s.nsyms - 1) ∧ (s.codeAt a).length ≤ s.par.maxcode) ∧
    ∀ a b, a ≠ b → s.codeAt a ≠ [] → ¬ s.codeAt a <+: s.codeAt b

/-- R175 items 4 and 5. -/
def Obligations.KraftEqualityAndCost : Prop :=
  ∀ s : State, s.Inv → s.phase = .hcode →
    (s.present.map fun a => (1 / 2 : ℚ) ^ (s.codeAt a).length).sum =
      (if s.nsyms = 1 then 1 / 2 else 1) ∧
    (2 ≤ s.nsyms → (s.present.map fun a => s.freqAt a * (s.codeAt a).length).sum =
      (((List.range s.nnodes).filter fun k => !(s.nodeAt k).leaf).map fun k => (s.nodeAt k).freq).sum)

/-- R176: RDCODE. -/
def Obligations.RdcodeReadsWord : Prop :=
  ∀ (s : State) (a : Opd), s.phase ≠ .fault →
    (a.toNat < s.par.nsym → s.phase = .hcode →
      (s.arg.toNat < s.par.codewords → ∃ t, exec (.rdcode a) s = .next t ∧
        (∀ j, j < 32 → t.res0.getLsbD j =
          (decide (32 * s.arg.toNat + j < s.par.maxcode) &&
            (s.codeAt a.toNat).getD (32 * s.arg.toNat + j) false)) ∧
        t = { s with res0 := t.res0, res1 := BitVec.ofNat 32 (s.codeAt a.toNat).length }) ∧
      (s.par.codewords ≤ s.arg.toNat → exec (.rdcode a) s =
        .next { s with phase := .fault, err := .badIndex, errcmd := encode (.rdcode a) })) ∧
    (a.toNat < s.par.nsym → s.phase ≠ .hcode → exec (.rdcode a) s =
      .next { s with phase := .fault, err := .badPhase, errcmd := encode (.rdcode a) }) ∧
    (s.par.nsym ≤ a.toNat → exec (.rdcode a) s =
      .next { s with phase := .fault, err := .badOperand, errcmd := encode (.rdcode a) })

/-! ## The emitter -/

/-- R191, R192: EMIT. -/
def Obligations.EmitAppendsCode : Prop :=
  ∀ (s : State) (a : Opd), s.phase ≠ .fault →
    (a.toNat < s.par.nsym → s.phase = .hcode →
      (s.codeAt a.toNat ≠ [] → exec (.emit a) s =
        .next { s with out := s.out ++ (s.codeAt a.toNat).map fun b => if b then 0x31 else 0x30 }) ∧
      (s.codeAt a.toNat = [] → exec (.emit a) s =
        .next { s with phase := .fault, err := .noCode, errcmd := encode (.emit a) })) ∧
    (a.toNat < s.par.nsym → s.phase ≠ .hcode → exec (.emit a) s =
      .next { s with phase := .fault, err := .badPhase, errcmd := encode (.emit a) }) ∧
    (s.par.nsym ≤ a.toNat → exec (.emit a) s =
      .next { s with phase := .fault, err := .badOperand, errcmd := encode (.emit a) })

/-- R193: the call HUFFMAN x of a non-empty input completes from any state; OUT is the concatenation of
the codes in input order, holds only '0' and '1', has length Σ FREQ × len, and determines x. -/
def Obligations.HuffmanCallIsDecodable : Prop :=
  ∀ (s : State) (x : List Opd), s.par.Legal → x ≠ [] → (∀ a ∈ x, a.toNat < s.par.nsym) →
    x.length ≤ s.par.cntmax →
    ∃ t, execAll ([.clear 0] ++ x.map .count ++ [.build 0, .gencode 0] ++ x.map .emit) s = .next t ∧
      t.phase = .hcode ∧
      t.out = x.flatMap (fun a => (t.codeAt a.toNat).map fun b => if b then 0x31 else 0x30) ∧
      (∀ c ∈ t.out, c = 0x30 ∨ c = 0x31) ∧
      t.out.length = (t.present.map fun a => t.freqAt a * (t.codeAt a).length).sum ∧
      ∀ y : List Opd, (∀ a ∈ y, t.codeAt a.toNat ≠ []) →
        y.flatMap (fun a => (t.codeAt a.toNat).map fun b => if b then 0x31 else 0x30) = t.out → y = x

/-! ## The run-length packer -/

/-- R202: RLEPUT. -/
def Obligations.RleputFeedsSymbol : Prop :=
  ∀ (s : State) (a : Opd), s.phase ≠ .fault →
    (a.toNat < s.par.nsym → s.phase = .idle ∨ s.phase = .rlerun →
      (s.total = s.par.cntmax → exec (.rleput a) s =
        .next { s with phase := .fault, err := .countOverflow, errcmd := encode (.rleput a) }) ∧
      (s.total ≠ s.par.cntmax →
        (s.runv = false → exec (.rleput a) s = .next
          { s with rlesym := a.toNat, rlecnt := 1, runv := true, total := s.total + 1, phase := .rlerun }) ∧
        (s.runv = true → a.toNat = s.rlesym → exec (.rleput a) s = .next
          { s with rlecnt := s.rlecnt + 1, total := s.total + 1, phase := .rlerun }) ∧
        (s.runv = true → a.toNat ≠ s.rlesym → exec (.rleput a) s = .next
          { s with
            out := s.out ++ [s.rlesym] ++ dec s.rlecnt
            rlesym := a.toNat, rlecnt := 1, total := s.total + 1, phase := .rlerun }))) ∧
    (a.toNat < s.par.nsym → s.phase ≠ .idle → s.phase ≠ .rlerun → exec (.rleput a) s =
      .next { s with phase := .fault, err := .badPhase, errcmd := encode (.rleput a) }) ∧
    (s.par.nsym ≤ a.toNat → exec (.rleput a) s =
      .next { s with phase := .fault, err := .badOperand, errcmd := encode (.rleput a) })

/-- R203, R204: RLEEND. -/
def Obligations.RleendFlushesLastRun : Prop :=
  ∀ s : State, s.phase ≠ .fault →
    (s.phase = .idle ∨ s.phase = .rlerun →
      (s.runv = true → exec (.rleend 0) s = .next
        { s with out := s.out ++ [s.rlesym] ++ dec s.rlecnt, runv := false, phase := .rledone }) ∧
      (s.runv = false → exec (.rleend 0) s =
        .next { s with phase := .fault, err := .emptyInput, errcmd := 0x51000000#32 })) ∧
    (s.phase ≠ .idle → s.phase ≠ .rlerun → exec (.rleend 0) s =
      .next { s with phase := .fault, err := .badPhase, errcmd := 0x51000000#32 }) ∧
    ∀ opd : Opd, opd ≠ 0 → exec (.rleend opd) s =
      .next { s with phase := .fault, err := .badOperand, errcmd := encode (.rleend opd) }

/-- R205: a run's token is its symbol, then the count in digit characters, most significant first, with
no leading zero: k + 1 of them for a count from 10^k to 10^(k+1) − 1, so at most 10 when CNTW = 32. -/
def Obligations.DecSpellsCount : Prop :=
  ∀ a n : Nat, 1 ≤ n →
    runToken a n = a :: dec n ∧
    (∀ c ∈ dec n, 0x30 ≤ c ∧ c ≤ 0x39) ∧
    (dec n).foldl (fun v c => 10 * v + (c - 0x30)) 0 = n ∧
    (∃ c cs, dec n = c :: cs ∧ c ≠ 0x30) ∧
    (∀ k, 10 ^ k ≤ n → n < 10 ^ (k + 1) → (dec n).length = k + 1) ∧
    (n < 2 ^ 32 → (dec n).length ≤ 10)

/-- R207: the call RLE x, for the input whose maximal runs are `rs`, completes from any state and
leaves in OUT the tokens of the runs in order. -/
def Obligations.RleCallSpellsRuns : Prop :=
  ∀ (s : State) (rs : List (Opd × Nat)), rs ≠ [] →
    (∀ r ∈ rs, r.1.toNat < s.par.nsym ∧ 1 ≤ r.2) → rs.IsChain (fun r r' => r.1 ≠ r'.1) →
    (rs.map Prod.snd).sum ≤ s.par.cntmax →
    ∃ t, execAll ([.clear 0] ++ (rs.flatMap fun r => List.replicate r.2 r.1).map .rleput ++
        [.rleend 0]) s = .next t ∧
      t.phase = .rledone ∧ t.total = (rs.map Prod.snd).sum ∧
      t.out = rs.flatMap fun r => r.1.toNat :: dec r.2

/-- R206, R207: where no symbol is a digit character, OUT of an RLE call determines the input. -/
def Obligations.RleOutputDeterminesInput : Prop :=
  ∀ (s : State) (x y : List Opd) (t u : State),
    (∀ a ∈ x, ¬ (0x30 ≤ a.toNat ∧ a.toNat ≤ 0x39)) → (∀ a ∈ y, ¬ (0x30 ≤ a.toNat ∧ a.toNat ≤ 0x39)) →
    execAll ([.clear 0] ++ x.map .rleput ++ [.rleend 0]) s = .next t → t.phase = .rledone →
    execAll ([.clear 0] ++ y.map .rleput ++ [.rleend 0]) s = .next u → u.phase = .rledone →
    t.out = u.out → x = y

/-- R232, R142, R204, R101: a command that fails with EMPTY_INPUT leaves OUT empty, and so do the calls
HUFFMAN and RLE of the empty text, which end in FAULT with that cause, recorded at the BUILD and at the
RLEEND. -/
def Obligations.EmptyInputNeverGivesOutput : Prop :=
  (∀ (w : Word) (s t : State), s.Inv → s.phase ≠ .fault → runWord w s = .next t →
    t.err = .emptyInput → t.out = []) ∧
  ∀ s : State,
    execAll [.clear 0, .build 0, .gencode 0] s =
      .next { State.resetWith s.par with
              inputs := s.inputs, response := s.response
              phase := .fault, err := .emptyInput, errcmd := 0x20000000#32 } ∧
    execAll [.clear 0, .rleend 0] s =
      .next { State.resetWith s.par with
              inputs := s.inputs, response := s.response
              phase := .fault, err := .emptyInput, errcmd := 0x51000000#32 }

/-! ## Invariants -/

/-- R44 at reset, for every legal choice of the parameters. -/
def Obligations.ResetMeetsTheCallInvariant : Prop :=
  State.reset.Inv ∧ ∀ p : Params, p.Legal → (State.resetWith p).Inv

/-- R44: every step, whatever the input, keeps the invariant of the call. -/
def Obligations.StepKeepsTheCallInvariant : Prop :=
  ∀ s t : State, s.Inv → step s = .next t → t.Inv

/-- Every step keeps the canonical form of the internal memories and the address and symbol ranges,
from every state that has them, reachable or not. -/
def Obligations.StepKeepsMemoriesCanonical : Prop :=
  ∀ s t : State, s.MemOk → step s = .next t → t.MemOk

/-- R230, R281: from a state that meets the invariant every step ends, in a next state. -/
def Obligations.EveryStepCompletes : Prop :=
  ∀ s : State, s.Inv → ∃ t, step s = .next t

/-- R34 to R39, R41 to R43, R150 item 5: in a state that meets the invariant every item fits the width
the spec gives it. -/
def Obligations.EveryItemFitsItsWidth : Prop :=
  ∀ s : State, s.Inv →
    s.nsyms ≤ s.par.nsym ∧ s.total ≤ s.par.cntmax ∧ s.nnodes ≤ s.par.maxnodes ∧
    s.root < 2 ^ s.par.idxw ∧ (s.nnodes ≠ 0 → s.root + 1 = s.nnodes) ∧ (s.nnodes = 0 → s.root = 0) ∧
    s.rlesym < 2 ^ s.par.symw ∧ s.rlecnt ≤ s.par.cntmax ∧
    (∀ a, s.freqAt a ≤ s.par.cntmax) ∧
    (∀ j, (s.nodeAt j).freq ≤ s.par.cntmax ∧ (s.nodeAt j).sym < 2 ^ s.par.symw ∧
      (s.nodeAt j).left < 2 ^ s.par.idxw ∧ (s.nodeAt j).right < 2 ^ s.par.idxw) ∧
    (∀ a, (s.codeAt a).length ≤ s.par.maxcode) ∧
    (∀ c ∈ s.out, c < 2 ^ s.par.symw) ∧
    (s.phase ≠ .fault → s.err = .none ∧ s.errcmd = 0)
end

