-- ==== Sys2Proof/Laws/Memory.lean ====
section
/-!
SUPPORT. The internal memories: read after write, the canonical form, and what a canonical memory is
determined by.
-/

namespace Sys2Proof.Machine.Memory

variable {α : Type} {d v : α} {a b lo : Nat} {m m' : Memory α}

@[simp] theorem read_nil : read d a ([] : Memory α) = d := rfl

theorem read_cons (e : Nat × α) :
    read d a (e :: m) = if e.1 = a then e.2 else read d a m := rfl

theorem read_erase_same : read d a (erase a m) = d := by
  induction m with
  | nil => rfl
  | cons e m ih =>
    by_cases h : e.1 = a
    · simpa [erase, h] using ih
    · simpa [erase, h, read_cons] using ih

theorem read_erase_other (h : a ≠ b) : read d b (erase a m) = read d b m := by
  induction m with
  | nil => rfl
  | cons e m ih =>
    by_cases he : e.1 = a
    · have hb : e.1 ≠ b := he ▸ h
      simpa [erase, he, read_cons, hb, h] using ih
    · by_cases hb : e.1 = b
      · simp [erase, h.symm, read_cons, hb]
      · simpa [erase, he, read_cons, hb] using ih

theorem read_insert_same (h : ∀ e ∈ m, e.1 ≠ a) : read d a (insert a v m) = v := by
  induction m with
  | nil => simp [insert, read_cons]
  | cons e m ih =>
    have he : e.1 ≠ a := h e (by simp)
    by_cases hlt : a < e.1
    · simp [insert, hlt, read_cons]
    · simpa [insert, hlt, read_cons, he] using ih fun x hx => h x (by simp [hx])

theorem read_insert_other (h : a ≠ b) : read d b (insert a v m) = read d b m := by
  induction m with
  | nil => simp [insert, read_cons, h]
  | cons e m ih =>
    by_cases hlt : a < e.1
    · simp [insert, hlt, read_cons, h]
    · simp [insert, hlt, read_cons, ih]

theorem not_mem_erase : ∀ e ∈ erase a m, e.1 ≠ a := by simp [erase]

theorem mem_insert {e : Nat × α} (h : e ∈ insert a v m) : e = (a, v) ∨ e ∈ m := by
  induction m with
  | nil => exact .inl (by simpa [insert] using h)
  | cons x m ih =>
    by_cases hlt : a < x.1
    · simpa [insert, hlt] using h
    · simp only [insert, hlt, if_false, List.mem_cons] at h ⊢
      rcases h with h | h
      · exact .inr (.inl h)
      · exact (ih h).imp_right .inr

theorem rising_mono (h : rising lo m = true) (hb : b ≤ lo) : rising b m = true := by
  cases m with
  | nil => rfl
  | cons e m => simp only [rising, Bool.and_eq_true, decide_eq_true_eq] at h ⊢; exact ⟨by omega, h.2⟩

theorem rising_filter (p : Nat × α → Bool) (h : rising lo m = true) :
    rising lo (m.filter p) = true := by
  induction m generalizing lo with
  | nil => rfl
  | cons e m ih =>
    simp only [rising, Bool.and_eq_true, decide_eq_true_eq] at h
    by_cases hp : p e = true
    · simp only [List.filter_cons, hp, if_true, rising, Bool.and_eq_true, decide_eq_true_eq]
      exact ⟨h.1, ih h.2⟩
    · simp only [List.filter_cons, hp]
      exact rising_mono (ih h.2) (by omega)

theorem rising_insert (h : rising lo m = true) (hlo : lo ≤ a) (hne : ∀ e ∈ m, e.1 ≠ a) :
    rising lo (insert a v m) = true := by
  induction m generalizing lo with
  | nil => simpa [insert, rising] using hlo
  | cons e m ih =>
    simp only [rising, Bool.and_eq_true, decide_eq_true_eq] at h
    have he : e.1 ≠ a := hne e (by simp)
    by_cases hlt : a < e.1
    · simp only [insert, hlt, if_true, rising, Bool.and_eq_true, decide_eq_true_eq]
      exact ⟨hlo, by omega, h.2⟩
    · simp only [insert, hlt, if_false, rising, Bool.and_eq_true, decide_eq_true_eq]
      exact ⟨h.1, ih h.2 (by omega) fun x hx => hne x (by simp [hx])⟩

theorem read_of_lt (h : rising lo m = true) (hlt : a < lo) : read d a m = d := by
  induction m generalizing lo with
  | nil => rfl
  | cons e m ih =>
    simp only [rising, Bool.and_eq_true, decide_eq_true_eq] at h
    rw [read_cons, if_neg (by omega)]
    exact ih h.2 (by omega)

/-- An address that reads as something of its own is listed. -/
theorem mem_of_read_ne (h : read d a m ≠ d) : (a, read d a m) ∈ m := by
  induction m with
  | nil => exact absurd rfl h
  | cons e m ih =>
    rw [read_cons] at h ⊢
    split
    · rename_i he; subst he; exact List.mem_cons_self
    · rw [if_neg ‹_›] at h
      exact List.mem_cons_of_mem _ (ih h)

theorem le_of_rising (h : rising lo m = true) {e : Nat × α} (he : e ∈ m) : lo ≤ e.1 := by
  induction m generalizing lo with
  | nil => cases he
  | cons x m ih =>
    simp only [rising, Bool.and_eq_true, decide_eq_true_eq] at h
    rcases List.mem_cons.1 he with rfl | he
    · exact h.1
    · have := ih h.2 he; omega

/-- An address beyond all listed ones reads as the default. -/
theorem read_unlisted {n : Nat} (h : ∀ e ∈ m, e.1 < n) (ha : n ≤ a) : read d a m = d := by
  induction m with
  | nil => rfl
  | cons e m ih =>
    have := h e (by simp)
    rw [read_cons, if_neg (by omega)]
    exact ih fun x hx => h x (by simp [hx])

variable [DecidableEq α]

/-- A read after a write to the same address gives the value written. -/
@[simp] theorem read_write_same : read d a (write d a v m) = v := by
  unfold write
  split
  · rw [read_erase_same]; exact Eq.symm ‹v = d›
  · exact read_insert_same not_mem_erase

/-- A write leaves every other address alone. -/
theorem read_write_other (h : a ≠ b) : read d b (write d a v m) = read d b m := by
  unfold write
  split
  · exact read_erase_other h
  · rw [read_insert_other h, read_erase_other h]

theorem read_write : read d b (write d a v m) = if a = b then v else read d b m := by
  split
  · subst b; exact read_write_same
  · exact read_write_other ‹_›

/-- A write lists no entry but the written one and entries listed before. -/
theorem mem_write {e : Nat × α} (h : e ∈ write d a v m) : e = (a, v) ∨ e ∈ m := by
  unfold write at h
  split at h
  · exact .inr (List.mem_of_mem_filter h)
  · exact (mem_insert h).imp_right List.mem_of_mem_filter

@[simp] theorem wf_nil : wf d ([] : Memory α) = true := rfl

/-- Every write keeps the canonical form. -/
theorem wf_write (h : wf d m = true) : wf d (write d a v m) = true := by
  simp only [wf, Bool.and_eq_true, List.all_eq_true] at h ⊢
  unfold write
  split
  · exact ⟨rising_filter _ h.1, fun e he => h.2 e (List.mem_of_mem_filter he)⟩
  · refine ⟨rising_insert (rising_filter _ h.1) (Nat.zero_le _) not_mem_erase, fun e he => ?_⟩
    rcases mem_insert he with rfl | he
    · simpa using ‹¬v = d›
    · exact h.2 e (List.mem_of_mem_filter he)

/-- A canonical memory is determined by what its addresses read as. -/
theorem ext_of_wf (h : wf d m = true) (h' : wf d m' = true)
    (hr : ∀ a, read d a m = read d a m') : m = m' := by
  simp only [wf, Bool.and_eq_true, List.all_eq_true, bne_iff_ne] at h h'
  obtain ⟨h1, h2⟩ := h
  obtain ⟨h1', h2'⟩ := h'
  generalize 0 = lo at h1 h1'
  induction m generalizing m' lo with
  | nil =>
    cases m' with
    | nil => rfl
    | cons e m' =>
      have := hr e.1
      simp only [read_nil, read_cons, if_true] at this
      exact absurd this.symm (h2' e (by simp))
  | cons x m ih =>
    simp only [rising, Bool.and_eq_true, decide_eq_true_eq] at h1
    cases m' with
    | nil =>
      have := hr x.1
      simp only [read_nil, read_cons, if_true] at this
      exact absurd this (h2 x (by simp))
    | cons y m' =>
      simp only [rising, Bool.and_eq_true, decide_eq_true_eq] at h1'
      have hx := hr x.1
      have hy := hr y.1
      simp only [read_cons, if_true] at hx hy
      have key : x.1 = y.1 := by
        rcases Nat.lt_trichotomy x.1 y.1 with hlt | heq | hgt
        · rw [if_neg (by omega), read_of_lt h1'.2 (by omega)] at hx
          exact absurd hx (h2 x (by simp))
        · exact heq
        · rw [if_neg (by omega), read_of_lt h1.2 (by omega)] at hy
          exact absurd hy.symm (h2' y (by simp))
      have hxy : x = y := Prod.ext key (by simpa [key] using hx)
      subst hxy
      congr 1
      refine ih (fun a => ?_) (fun e he => h2 e (by simp [he])) (fun e he => h2' e (by simp [he]))
        (x.1 + 1) h1.2 h1'.2
      have := hr a
      simp only [read_cons] at this
      split at this
      · subst a; rw [read_of_lt h1.2 (by omega), read_of_lt h1'.2 (by omega)]
      · exact this

/-- A listed entry is what its address reads as, and it is not the default. -/
theorem read_of_mem {e : Nat × α} (h : wf d m = true) (he : e ∈ m) :
    read d e.1 m = e.2 ∧ e.2 ≠ d := by
  simp only [wf, Bool.and_eq_true, List.all_eq_true, bne_iff_ne] at h
  refine ⟨?_, h.2 e he⟩
  have h1 := h.1
  clear h
  generalize 0 = lo at h1
  induction m generalizing lo with
  | nil => cases he
  | cons x m ih =>
    simp only [rising, Bool.and_eq_true, decide_eq_true_eq] at h1
    rcases List.mem_cons.1 he with rfl | he
    · rw [read_cons, if_pos rfl]
    · have := le_of_rising h1.2 he
      rw [read_cons, if_neg (by omega)]
      exact ih he _ h1.2

/-- A memory all of whose addresses read as the default, and which is canonical, lists nothing. -/
theorem eq_nil_of_read (h : wf d m = true) (hr : ∀ a, read d a m = d) : m = [] :=
  ext_of_wf h wf_nil hr

end Sys2Proof.Machine.Memory
end

