-- ==== Sys2Proof/Laws/State.lean ====
section
/-!
SUPPORT. What each update of the state leaves in each field, once, so that no proof unfolds an update.
-/

namespace Sys2Proof.Machine

@[simp] theorem State.fail_par (c : Cause) (w : Word) (s : State) : (s.fail c w).par = s.par := rfl
@[simp] theorem State.fail_inputs (c : Cause) (w : Word) (s : State) : (s.fail c w).inputs = s.inputs := rfl
@[simp] theorem State.fail_response (c : Cause) (w : Word) (s : State) : (s.fail c w).response = s.response := rfl
@[simp] theorem State.fail_arg (c : Cause) (w : Word) (s : State) : (s.fail c w).arg = s.arg := rfl
@[simp] theorem State.fail_res0 (c : Cause) (w : Word) (s : State) : (s.fail c w).res0 = s.res0 := rfl
@[simp] theorem State.fail_res1 (c : Cause) (w : Word) (s : State) : (s.fail c w).res1 = s.res1 := rfl
@[simp] theorem State.fail_res2 (c : Cause) (w : Word) (s : State) : (s.fail c w).res2 = s.res2 := rfl
@[simp] theorem State.fail_phase (c : Cause) (w : Word) (s : State) : (s.fail c w).phase = .fault := rfl
@[simp] theorem State.fail_runv (c : Cause) (w : Word) (s : State) : (s.fail c w).runv = s.runv := rfl
@[simp] theorem State.fail_err (c : Cause) (w : Word) (s : State) : (s.fail c w).err = c := rfl
@[simp] theorem State.fail_errcmd (c : Cause) (w : Word) (s : State) : (s.fail c w).errcmd = w := rfl
@[simp] theorem State.fail_nsyms (c : Cause) (w : Word) (s : State) : (s.fail c w).nsyms = s.nsyms := rfl
@[simp] theorem State.fail_total (c : Cause) (w : Word) (s : State) : (s.fail c w).total = s.total := rfl
@[simp] theorem State.fail_nnodes (c : Cause) (w : Word) (s : State) : (s.fail c w).nnodes = s.nnodes := rfl
@[simp] theorem State.fail_root (c : Cause) (w : Word) (s : State) : (s.fail c w).root = s.root := rfl
@[simp] theorem State.fail_rlesym (c : Cause) (w : Word) (s : State) : (s.fail c w).rlesym = s.rlesym := rfl
@[simp] theorem State.fail_rlecnt (c : Cause) (w : Word) (s : State) : (s.fail c w).rlecnt = s.rlecnt := rfl
@[simp] theorem State.fail_freq (c : Cause) (w : Word) (s : State) : (s.fail c w).freq = s.freq := rfl
@[simp] theorem State.fail_node (c : Cause) (w : Word) (s : State) : (s.fail c w).node = s.node := rfl
@[simp] theorem State.fail_code (c : Cause) (w : Word) (s : State) : (s.fail c w).code = s.code := rfl
@[simp] theorem State.fail_out (c : Cause) (w : Word) (s : State) : (s.fail c w).out = s.out := rfl

@[simp] theorem State.clear_par (s : State) : (s.clear).par = s.par := rfl
@[simp] theorem State.clear_inputs (s : State) : (s.clear).inputs = s.inputs := rfl
@[simp] theorem State.clear_response (s : State) : (s.clear).response = s.response := rfl
@[simp] theorem State.clear_arg (s : State) : (s.clear).arg = 0 := rfl
@[simp] theorem State.clear_res0 (s : State) : (s.clear).res0 = 0 := rfl
@[simp] theorem State.clear_res1 (s : State) : (s.clear).res1 = 0 := rfl
@[simp] theorem State.clear_res2 (s : State) : (s.clear).res2 = 0 := rfl
@[simp] theorem State.clear_phase (s : State) : (s.clear).phase = .idle := rfl
@[simp] theorem State.clear_runv (s : State) : (s.clear).runv = false := rfl
@[simp] theorem State.clear_err (s : State) : (s.clear).err = .none := rfl
@[simp] theorem State.clear_errcmd (s : State) : (s.clear).errcmd = 0 := rfl
@[simp] theorem State.clear_nsyms (s : State) : (s.clear).nsyms = 0 := rfl
@[simp] theorem State.clear_total (s : State) : (s.clear).total = 0 := rfl
@[simp] theorem State.clear_nnodes (s : State) : (s.clear).nnodes = 0 := rfl
@[simp] theorem State.clear_root (s : State) : (s.clear).root = 0 := rfl
@[simp] theorem State.clear_rlesym (s : State) : (s.clear).rlesym = 0 := rfl
@[simp] theorem State.clear_rlecnt (s : State) : (s.clear).rlecnt = 0 := rfl
@[simp] theorem State.clear_freq (s : State) : (s.clear).freq = [] := rfl
@[simp] theorem State.clear_node (s : State) : (s.clear).node = [] := rfl
@[simp] theorem State.clear_code (s : State) : (s.clear).code = [] := rfl
@[simp] theorem State.clear_out (s : State) : (s.clear).out = [] := rfl

@[simp] theorem State.append_par (cs : List Nat) (s : State) : (s.append cs).par = s.par := rfl
@[simp] theorem State.append_inputs (cs : List Nat) (s : State) : (s.append cs).inputs = s.inputs := rfl
@[simp] theorem State.append_response (cs : List Nat) (s : State) : (s.append cs).response = s.response := rfl
@[simp] theorem State.append_arg (cs : List Nat) (s : State) : (s.append cs).arg = s.arg := rfl
@[simp] theorem State.append_res0 (cs : List Nat) (s : State) : (s.append cs).res0 = s.res0 := rfl
@[simp] theorem State.append_res1 (cs : List Nat) (s : State) : (s.append cs).res1 = s.res1 := rfl
@[simp] theorem State.append_res2 (cs : List Nat) (s : State) : (s.append cs).res2 = s.res2 := rfl
@[simp] theorem State.append_phase (cs : List Nat) (s : State) : (s.append cs).phase = s.phase := rfl
@[simp] theorem State.append_runv (cs : List Nat) (s : State) : (s.append cs).runv = s.runv := rfl
@[simp] theorem State.append_err (cs : List Nat) (s : State) : (s.append cs).err = s.err := rfl
@[simp] theorem State.append_errcmd (cs : List Nat) (s : State) : (s.append cs).errcmd = s.errcmd := rfl
@[simp] theorem State.append_nsyms (cs : List Nat) (s : State) : (s.append cs).nsyms = s.nsyms := rfl
@[simp] theorem State.append_total (cs : List Nat) (s : State) : (s.append cs).total = s.total := rfl
@[simp] theorem State.append_nnodes (cs : List Nat) (s : State) : (s.append cs).nnodes = s.nnodes := rfl
@[simp] theorem State.append_root (cs : List Nat) (s : State) : (s.append cs).root = s.root := rfl
@[simp] theorem State.append_rlesym (cs : List Nat) (s : State) : (s.append cs).rlesym = s.rlesym := rfl
@[simp] theorem State.append_rlecnt (cs : List Nat) (s : State) : (s.append cs).rlecnt = s.rlecnt := rfl
@[simp] theorem State.append_freq (cs : List Nat) (s : State) : (s.append cs).freq = s.freq := rfl
@[simp] theorem State.append_node (cs : List Nat) (s : State) : (s.append cs).node = s.node := rfl
@[simp] theorem State.append_code (cs : List Nat) (s : State) : (s.append cs).code = s.code := rfl
@[simp] theorem State.append_out (cs : List Nat) (s : State) : (s.append cs).out = s.out ++ cs := rfl

@[simp] theorem State.respond_par (r : Response) (s : State) : (s.respond r).par = s.par := rfl
@[simp] theorem State.respond_inputs (r : Response) (s : State) : (s.respond r).inputs = s.inputs := rfl
@[simp] theorem State.respond_response (r : Response) (s : State) : (s.respond r).response = some r := rfl
@[simp] theorem State.respond_arg (r : Response) (s : State) : (s.respond r).arg = s.arg := rfl
@[simp] theorem State.respond_res0 (r : Response) (s : State) : (s.respond r).res0 = s.res0 := rfl
@[simp] theorem State.respond_res1 (r : Response) (s : State) : (s.respond r).res1 = s.res1 := rfl
@[simp] theorem State.respond_res2 (r : Response) (s : State) : (s.respond r).res2 = s.res2 := rfl
@[simp] theorem State.respond_phase (r : Response) (s : State) : (s.respond r).phase = s.phase := rfl
@[simp] theorem State.respond_runv (r : Response) (s : State) : (s.respond r).runv = s.runv := rfl
@[simp] theorem State.respond_err (r : Response) (s : State) : (s.respond r).err = s.err := rfl
@[simp] theorem State.respond_errcmd (r : Response) (s : State) : (s.respond r).errcmd = s.errcmd := rfl
@[simp] theorem State.respond_nsyms (r : Response) (s : State) : (s.respond r).nsyms = s.nsyms := rfl
@[simp] theorem State.respond_total (r : Response) (s : State) : (s.respond r).total = s.total := rfl
@[simp] theorem State.respond_nnodes (r : Response) (s : State) : (s.respond r).nnodes = s.nnodes := rfl
@[simp] theorem State.respond_root (r : Response) (s : State) : (s.respond r).root = s.root := rfl
@[simp] theorem State.respond_rlesym (r : Response) (s : State) : (s.respond r).rlesym = s.rlesym := rfl
@[simp] theorem State.respond_rlecnt (r : Response) (s : State) : (s.respond r).rlecnt = s.rlecnt := rfl
@[simp] theorem State.respond_freq (r : Response) (s : State) : (s.respond r).freq = s.freq := rfl
@[simp] theorem State.respond_node (r : Response) (s : State) : (s.respond r).node = s.node := rfl
@[simp] theorem State.respond_code (r : Response) (s : State) : (s.respond r).code = s.code := rfl
@[simp] theorem State.respond_out (r : Response) (s : State) : (s.respond r).out = s.out := rfl

@[simp] theorem resetBlock_par (s : State) : (resetBlock s).par = s.par := rfl
@[simp] theorem resetBlock_inputs (s : State) : (resetBlock s).inputs = s.inputs := rfl
@[simp] theorem resetBlock_response (s : State) : (resetBlock s).response = none := rfl
@[simp] theorem resetBlock_arg (s : State) : (resetBlock s).arg = 0 := rfl
@[simp] theorem resetBlock_res0 (s : State) : (resetBlock s).res0 = 0 := rfl
@[simp] theorem resetBlock_res1 (s : State) : (resetBlock s).res1 = 0 := rfl
@[simp] theorem resetBlock_res2 (s : State) : (resetBlock s).res2 = 0 := rfl
@[simp] theorem resetBlock_phase (s : State) : (resetBlock s).phase = .idle := rfl
@[simp] theorem resetBlock_runv (s : State) : (resetBlock s).runv = false := rfl
@[simp] theorem resetBlock_err (s : State) : (resetBlock s).err = .none := rfl
@[simp] theorem resetBlock_errcmd (s : State) : (resetBlock s).errcmd = 0 := rfl
@[simp] theorem resetBlock_nsyms (s : State) : (resetBlock s).nsyms = 0 := rfl
@[simp] theorem resetBlock_total (s : State) : (resetBlock s).total = 0 := rfl
@[simp] theorem resetBlock_nnodes (s : State) : (resetBlock s).nnodes = 0 := rfl
@[simp] theorem resetBlock_root (s : State) : (resetBlock s).root = 0 := rfl
@[simp] theorem resetBlock_rlesym (s : State) : (resetBlock s).rlesym = 0 := rfl
@[simp] theorem resetBlock_rlecnt (s : State) : (resetBlock s).rlecnt = 0 := rfl
@[simp] theorem resetBlock_freq (s : State) : (resetBlock s).freq = [] := rfl
@[simp] theorem resetBlock_node (s : State) : (resetBlock s).node = [] := rfl
@[simp] theorem resetBlock_code (s : State) : (resetBlock s).code = [] := rfl
@[simp] theorem resetBlock_out (s : State) : (resetBlock s).out = [] := rfl

/-- CLEAR leaves the reset state, item for item (45_control.md R221, 10_state.md R49). -/
theorem State.clear_eq_reset (s : State) :
    s.clear = { State.resetWith s.par with inputs := s.inputs, response := s.response } := rfl

end Sys2Proof.Machine
end

