-- ==== Sys2Proof/Laws/Command.lean ====
section
/-!
SUPPORT. What a command can do, once: it is ignored in FAULT, or it fails and changes PHASE, ERR and
ERRCMD alone, or its own rule takes effect. One inversion lemma per meaning says so of each command.
-/

namespace Sys2Proof.Machine

variable {i : Instr} {s t : State} {opd : Opd}

/-- The command did not take effect: it was ignored in FAULT (R243) or it failed (R236). -/
def Unexecuted (i : Instr) (s t : State) : Prop :=
  (s.phase = .fault ∧ t = s) ∨ (s.phase ≠ .fault ∧ ∃ c, c ≠ .none ∧ t = s.fail c (encode i))

theorem command_next {body : Host.Outcome State Fault Refusal}
    (h : command i s body = .next t) :
    Unexecuted i s t ∨
      (s.phase ≠ .fault ∧ operandLegal s.par i = true ∧ legalIn s.phase i = true ∧ body = .next t) := by
  unfold command raiseFail at h
  split at h
  · injection h with h; exact .inl (.inl ⟨‹_›, h.symm⟩)
  split at h
  · injection h with h; exact .inl (.inr ⟨‹_›, _, by decide, h.symm⟩)
  split at h
  · injection h with h; exact .inl (.inr ⟨‹_›, _, by decide, h.symm⟩)
  · exact .inr ⟨‹_›, by simpa using ‹¬operandLegal _ _ = false›, by simpa using ‹¬legalIn _ _ = false›, h⟩

/-- Where the three tests pass, a command is its own rule. -/
theorem command_pass {body : Host.Outcome State Fault Refusal} (hf : s.phase ≠ .fault)
    (ho : operandLegal s.par i = true) (hl : legalIn s.phase i = true) : command i s body = body := by
  simp [command, hf, ho, hl]

theorem raiseFail_next {c : Cause} (hf : s.phase ≠ .fault) (hc : c ≠ .none)
    (h : raiseFail c i s = .next t) : Unexecuted i s t := by
  unfold raiseFail at h
  injection h with h
  exact .inr ⟨hf, c, hc, h.symm⟩

theorem execNop_next (h : execNop opd s = .next t) :
    Unexecuted (.nop opd) s t ∨ (s.phase ≠ .fault ∧ opd = 0 ∧ t = s) := by
  rcases command_next h with h | ⟨hf, ho, -, h⟩
  · exact .inl h
  · injection h with h
    exact .inr ⟨hf, by simpa [operandLegal, Format.of, Format.legal, Instr.operand] using ho, h.symm⟩

theorem execClear_next (h : execClear opd s = .next t) :
    Unexecuted (.clear opd) s t ∨ (opd = 0 ∧ t = s.clear) := by
  unfold execClear at h
  split at h
  · injection h with h; exact .inr ⟨‹_ ∧ _›.2, h.symm⟩
  rcases command_next h with h | ⟨-, ho, -, h⟩
  · exact .inl h
  · injection h with h
    exact .inr ⟨by simpa [operandLegal, Format.of, Format.legal, Instr.operand] using ho, h.symm⟩

theorem execCount_next (h : execCount opd s = .next t) :
    Unexecuted (.count opd) s t ∨
      ((s.phase = .idle ∨ s.phase = .hcount) ∧ opd.toNat < s.par.nsym ∧ s.total ≠ s.par.cntmax ∧
        t = { s with
              nsyms := if s.freqAt opd.toNat = 0 then s.nsyms + 1 else s.nsyms
              freq := Memory.write 0 opd.toNat (s.freqAt opd.toNat + 1) s.freq
              total := s.total + 1
              phase := .hcount }) := by
  rcases command_next h with h | ⟨hf, ho, hl, h⟩
  · exact .inl h
  split at h
  · exact .inl (raiseFail_next hf (by decide) h)
  · injection h with h
    exact .inr ⟨by simpa [legalIn] using hl,
      by simpa [operandLegal, Format.of, Format.legal, Instr.operand] using ho, ‹_›, h.symm⟩

theorem execLoadf_next (h : execLoadf opd s = .next t) :
    Unexecuted (.loadf opd) s t ∨
      ∃ new, countArg s = some new ∧ (s.phase = .idle ∨ s.phase = .hcount) ∧
        opd.toNat < s.par.nsym ∧ s.total - s.freqAt opd.toNat + new ≤ s.par.cntmax ∧
        t = { s with
              freq := Memory.write 0 opd.toNat new s.freq
              total := s.total - s.freqAt opd.toNat + new
              nsyms := s.nsyms - entryCount (s.freqAt opd.toNat) + entryCount new
              phase := .hcount } := by
  rcases command_next h with h | ⟨hf, ho, hl, h⟩
  · exact .inl h
  split at h
  · exact .inl (raiseFail_next hf (by decide) h)
  rename_i new hnew
  dsimp only at h
  split at h
  · exact .inl (raiseFail_next hf (by decide) h)
  · injection h with h
    exact .inr ⟨new, hnew, by simpa [legalIn] using hl,
      by simpa [operandLegal, Format.of, Format.legal, Instr.operand] using ho,
      Nat.le_of_not_lt ‹_›, h.symm⟩

theorem execRdfreq_next (h : execRdfreq opd s = .next t) :
    Unexecuted (.rdfreq opd) s t ∨
      (s.phase ≠ .fault ∧ opd.toNat < s.par.nsym ∧ t = { s with res0 := zext32 (s.freqAt opd.toNat) }) := by
  rcases command_next h with h | ⟨hf, ho, -, h⟩
  · exact .inl h
  · injection h with h
    exact .inr ⟨hf, by simpa [operandLegal, Format.of, Format.legal, Instr.operand] using ho, h.symm⟩

theorem execBuild_next (h : execBuild opd s = .next t) :
    Unexecuted (.build opd) s t ∨
      ∃ r rest, (buildTree s.par s.freq s.node).pq = r :: rest ∧ opd = 0 ∧
        (s.phase = .idle ∨ s.phase = .hcount) ∧ s.nsyms ≠ 0 ∧
        t = { s with
              node := (buildTree s.par s.freq s.node).node
              root := r
              nnodes := (buildTree s.par s.freq s.node).n
              phase := .htree } := by
  rcases command_next h with h | ⟨hf, ho, hl, h⟩
  · exact .inl h
  split at h
  · exact .inl (raiseFail_next hf (by decide) h)
  dsimp only at h
  split at h
  · cases h
  · rename_i r rest hpq
    injection h with h
    exact .inr ⟨r, rest, hpq,
      by simpa [operandLegal, Format.of, Format.legal, Instr.operand] using ho,
      by simpa [legalIn] using hl, ‹_›, h.symm⟩

theorem execRdnode_next (h : execRdnode opd s = .next t) :
    Unexecuted (.rdnode opd) s t ∨
      ((s.phase = .htree ∨ s.phase = .hcode) ∧ opd.toNat < s.nnodes ∧
        t = { s with
              res0 := zext32 (s.nodeAt opd.toNat).freq
              res1 := (s.nodeAt opd.toNat).res1
              res2 := (s.nodeAt opd.toNat).res2 }) := by
  rcases command_next h with h | ⟨hf, -, hl, h⟩
  · exact .inl h
  split at h
  · exact .inl (raiseFail_next hf (by decide) h)
  · injection h with h
    exact .inr ⟨by simpa [legalIn] using hl, Nat.lt_of_not_le ‹_›, h.symm⟩

theorem execGencode_next (h : execGencode opd s = .next t) :
    Unexecuted (.gencode opd) s t ∨
      ∃ code, codeTable s.node s.root s.nnodes s.code = some code ∧ opd = 0 ∧ s.phase = .htree ∧
        t = { s with code := code, phase := .hcode } := by
  rcases command_next h with h | ⟨-, ho, hl, h⟩
  · exact .inl h
  split at h
  · cases h
  · rename_i code hc
    injection h with h
    exact .inr ⟨code, hc, by simpa [operandLegal, Format.of, Format.legal, Instr.operand] using ho,
      by simpa [legalIn] using hl, h.symm⟩

theorem execRdcode_next (h : execRdcode opd s = .next t) :
    Unexecuted (.rdcode opd) s t ∨
      (s.phase = .hcode ∧ opd.toNat < s.par.nsym ∧ s.arg.toNat < s.par.codewords ∧
        t = { s with
              res1 := zext32 (s.codeAt opd.toNat).length
              res0 := codeWord s.par (s.codeAt opd.toNat) s.arg.toNat }) := by
  rcases command_next h with h | ⟨hf, ho, hl, h⟩
  · exact .inl h
  dsimp only at h
  split at h
  · exact .inl (raiseFail_next hf (by decide) h)
  · injection h with h
    exact .inr ⟨by simpa [legalIn] using hl,
      by simpa [operandLegal, Format.of, Format.legal, Instr.operand] using ho,
      Nat.lt_of_not_le ‹_›, h.symm⟩

theorem execEmit_next (h : execEmit opd s = .next t) :
    Unexecuted (.emit opd) s t ∨
      (s.phase = .hcode ∧ opd.toNat < s.par.nsym ∧ s.codeAt opd.toNat ≠ [] ∧
        t = s.append (codeText (s.codeAt opd.toNat))) := by
  rcases command_next h with h | ⟨hf, ho, hl, h⟩
  · exact .inl h
  dsimp only at h
  split at h
  · exact .inl (raiseFail_next hf (by decide) h)
  · rename_i hc
    injection h with h
    exact .inr ⟨by simpa [legalIn] using hl,
      by simpa [operandLegal, Format.of, Format.legal, Instr.operand] using ho,
      fun he => hc (by simp [symbolOf, he]), h.symm⟩

theorem execRleput_next (h : execRleput opd s = .next t) :
    Unexecuted (.rleput opd) s t ∨
      ((s.phase = .idle ∨ s.phase = .rlerun) ∧ opd.toNat < s.par.nsym ∧ s.total ≠ s.par.cntmax ∧
        ((s.runv = false ∧
            t = { s with
                  rlesym := opd.toNat, rlecnt := 1, runv := true
                  total := s.total + 1, phase := .rlerun }) ∨
          (s.runv = true ∧ opd.toNat = s.rlesym ∧
            t = { s with rlecnt := s.rlecnt + 1, total := s.total + 1, phase := .rlerun }) ∨
          (s.runv = true ∧ opd.toNat ≠ s.rlesym ∧
            t = { s.append (runToken s.rlesym s.rlecnt) with
                  rlesym := opd.toNat, rlecnt := 1, total := s.total + 1, phase := .rlerun }))) := by
  rcases command_next h with h | ⟨hf, ho, hl, h⟩
  · exact .inl h
  dsimp only at h
  split at h
  · exact .inl (raiseFail_next hf (by decide) h)
  refine .inr ⟨by simpa [legalIn] using hl,
    by simpa [operandLegal, Format.of, Format.legal, Instr.operand] using ho, ‹_›, ?_⟩
  split at h
  · injection h with h; exact .inl ⟨‹_›, h.symm⟩
  have hr : s.runv = true := by simpa using ‹¬s.runv = false›
  split at h
  · injection h with h; exact .inr (.inl ⟨hr, ‹_›, h.symm⟩)
  · injection h with h; exact .inr (.inr ⟨hr, ‹_›, h.symm⟩)

theorem execRleend_next (h : execRleend opd s = .next t) :
    Unexecuted (.rleend opd) s t ∨
      (opd = 0 ∧ (s.phase = .idle ∨ s.phase = .rlerun) ∧ s.runv = true ∧
        t = { s.append (runToken s.rlesym s.rlecnt) with runv := false, phase := .rledone }) := by
  rcases command_next h with h | ⟨hf, ho, hl, h⟩
  · exact .inl h
  split at h
  · exact .inl (raiseFail_next hf (by decide) h)
  · injection h with h
    exact .inr ⟨by simpa [operandLegal, Format.of, Format.legal, Instr.operand] using ho,
      by simpa [legalIn] using hl, by simpa using ‹¬s.runv = false›, h.symm⟩

end Sys2Proof.Machine
end

