-- ==== Sys2Proof/Laws/Operands.lean ====
section
/-!
SUPPORT. The two fields of a word and the word of two fields, and the machine's test of the operand
field, which is `Instr.wellFormed`.
-/

namespace Sys2Proof

theorem opField_append (x : Op) (y : Opd) : opField (x ++ y) = x := by
  ext k hk
  rw [opField, BitVec.getElem_extractLsb']
  refine (BitVec.getLsbD_append (x := x) (y := y) (i := 24 + k)).trans ?_
  rw [if_neg (by omega), Nat.add_sub_cancel_left, BitVec.getLsbD_eq_getElem hk]

theorem opdField_append (x : Op) (y : Opd) : opdField (x ++ y) = y := by
  ext k hk
  rw [opdField, BitVec.getElem_extractLsb']
  refine (BitVec.getLsbD_append (x := x) (y := y) (i := 0 + k)).trans ?_
  rw [if_pos (by omega), Nat.zero_add, BitVec.getLsbD_eq_getElem hk]

/-- A word is its two fields (R90). -/
theorem fields_append (w : Word) : (opField w ++ opdField w : BitVec 32) = w := by
  refine BitVec.eq_of_getLsbD_eq fun k hk => ?_
  refine (BitVec.getLsbD_append (x := opField w) (y := opdField w) (i := k)).trans ?_
  split
  · rw [opdField, BitVec.getLsbD_extractLsb']; simp [*]
  · rw [opField, BitVec.getLsbD_extractLsb', show 24 + (k - 24) = k by omega]
    simp [show k - 24 < 8 by omega]

theorem opField_encode (i : Instr) : opField (encode i) = i.opcode := opField_append _ _

theorem opdField_encode (i : Instr) : opdField (encode i) = i.operand := opdField_append _ _

/-- The mask of R94 keeps the opcode field. -/
theorem mask_append (x : Op) (y : Opd) :
    ((x ++ y : BitVec 32) &&& 0xFF000000#32) = (x ++ 0#24 : BitVec 32) := by
  refine BitVec.eq_of_getLsbD_eq fun k hk => ?_
  rw [BitVec.getLsbD_and]
  rw [show (x ++ y : BitVec 32).getLsbD k = if k < 24 then y.getLsbD k else x.getLsbD (k - 24) from
      BitVec.getLsbD_append,
    show (x ++ 0#24 : BitVec 32).getLsbD k = if k < 24 then (0#24).getLsbD k else x.getLsbD (k - 24)
      from BitVec.getLsbD_append]
  have hm : ∀ k < 32, (0xFF000000#32).getLsbD k = decide (24 ≤ k) := by decide
  rw [hm k hk]
  split
  · simp [show ¬ 24 ≤ k by omega]
  · simp [show 24 ≤ k by omega]

namespace Machine

theorem operandLegal_eq_wellFormed (p : Params) (i : Instr) :
    operandLegal p i = i.wellFormed p := by
  cases i <;> rfl

end Machine

end Sys2Proof
end

