-- ==== Sys2Proof/Laws/Dispatch.lean ====
section
/-!
SUPPORT. The tests every command shares, read off `exec`: FAULT, the operand field, the phase, and the
causes left to a command's own tests (30_encoding.md R95, 60_exceptions.md R242).
-/

namespace Sys2Proof.Machine

variable {i : Instr} {s t : State} {opd : Opd}

/-- In FAULT every command but CLEAR with operand 0 is ignored (R243). -/
theorem exec_ignored (hf : s.phase = .fault) (h : i ≠ .clear 0) : exec i s = .next s := by
  cases i with
  | clear opd =>
    have : ¬ (s.phase = .fault ∧ opd = 0) := fun h' => h (by rw [h'.2])
    simp only [exec, execClear, if_neg this, command, if_pos hf]
  | _ =>
    simp only [exec, execNop, execCount, execLoadf, execRdfreq, execBuild, execRdnode, execGencode,
      execRdcode, execEmit, execRleput, execRleend, command, if_pos hf]

theorem exec_illegalOperand (hf : s.phase ≠ .fault) (h : i.wellFormed s.par = false) :
    exec i s = .next (s.fail .badOperand (encode i)) := by
  rw [← operandLegal_eq_wellFormed] at h
  cases i <;>
    simp only [exec, execNop, execClear, execCount, execLoadf, execRdfreq, execBuild, execRdnode,
      execGencode, execRdcode, execEmit, execRleput, execRleend, command, hf, h, if_true, if_false,
      false_and, raiseFail]

theorem exec_illegalPhase (hf : s.phase ≠ .fault) (h : i.wellFormed s.par = true)
    (hl : legalIn s.phase i = false) : exec i s = .next (s.fail .badPhase (encode i)) := by
  rw [← operandLegal_eq_wellFormed] at h
  cases i <;>
    simp only [exec, execNop, execClear, execCount, execLoadf, execRdfreq, execBuild, execRdnode,
      execGencode, execRdcode, execEmit, execRleput, execRleend, command, hf, h, hl, if_true,
      if_false, false_and, raiseFail, Bool.true_eq_false]

/-- The cause a command's own tests report, where they report one (R242 item 5). -/
def ownCause (s : State) : Instr → Cause
  | .nop _ => .none
  | .clear _ => .none
  | .count _ => .countOverflow
  | .loadf _ => if 2 ^ s.par.cntw ≤ s.arg.toNat then .badOperand else .countOverflow
  | .rdfreq _ => .none
  | .build _ => .emptyInput
  | .rdnode _ => .badIndex
  | .gencode _ => .none
  | .rdcode _ => .badIndex
  | .emit _ => .noCode
  | .rleput _ => .countOverflow
  | .rleend _ => .emptyInput

theorem countArg_eq : countArg s =
    if 2 ^ s.par.cntw ≤ s.arg.toNat then none else some s.arg.toNat := by
  have hp : 0 < 2 ^ s.par.cntw := Nat.two_pow_pos _
  unfold countArg
  split
  · rename_i h
    have hlt : s.arg.toNat < 2 ^ s.par.cntw := (Nat.div_eq_zero_iff_lt hp).1 h
    rw [if_neg (by omega), Nat.mod_eq_of_lt hlt]
  · rename_i h
    have hle : ¬ s.arg.toNat < 2 ^ s.par.cntw := fun hlt => h ((Nat.div_eq_zero_iff_lt hp).2 hlt)
    rw [if_pos (by omega)]

theorem raiseFail_eq {c : Cause} (h : raiseFail c i s = .next t) : t = s.fail c (encode i) := by
  unfold raiseFail at h
  injection h with h
  exact h.symm

/-- Where the three shared tests pass, a command that ends in FAULT reports its own cause. -/
theorem exec_ownCause (hf : s.phase ≠ .fault) (hw : i.wellFormed s.par = true)
    (hl : legalIn s.phase i = true) (h : exec i s = .next t) (ht : t.phase = .fault) :
    ownCause s i ≠ .none ∧ t = s.fail (ownCause s i) (encode i) := by
  have ho : operandLegal s.par i = true := (operandLegal_eq_wellFormed _ _).trans hw
  cases i with
  | nop o =>
    simp only [exec, execNop, command_pass hf ho hl] at h
    injection h with h; subst h; exact absurd ht hf
  | clear o =>
    simp only [exec, execClear, command_pass hf ho hl, ite_self] at h
    injection h with h; subst h; simp at ht
  | count a =>
    simp only [exec, execCount, command_pass hf ho hl] at h
    split at h
    · exact ⟨by simp [ownCause], raiseFail_eq h⟩
    · injection h with h; subst h; simp at ht
  | loadf a =>
    simp only [exec, execLoadf, command_pass hf ho hl, countArg_eq] at h
    by_cases hc : 2 ^ s.par.cntw ≤ s.arg.toNat
    · simp only [if_pos hc] at h
      exact ⟨by simp [ownCause, hc], by simpa [ownCause, hc] using raiseFail_eq h⟩
    · simp only [if_neg hc] at h
      split at h
      · exact ⟨by simp [ownCause, hc], by simpa [ownCause, hc] using raiseFail_eq h⟩
      · injection h with h; subst h; simp at ht
  | rdfreq a =>
    simp only [exec, execRdfreq, command_pass hf ho hl] at h
    injection h with h; subst h; exact absurd ht hf
  | build o =>
    simp only [exec, execBuild, command_pass hf ho hl] at h
    split at h
    · exact ⟨by simp [ownCause], raiseFail_eq h⟩
    split at h
    · cases h
    · injection h with h; subst h; simp at ht
  | rdnode x =>
    simp only [exec, execRdnode, command_pass hf ho hl] at h
    split at h
    · exact ⟨by simp [ownCause], raiseFail_eq h⟩
    · injection h with h; subst h; exact absurd ht hf
  | gencode o =>
    simp only [exec, execGencode, command_pass hf ho hl] at h
    split at h
    · cases h
    · injection h with h; subst h; simp at ht
  | rdcode a =>
    simp only [exec, execRdcode, command_pass hf ho hl] at h
    split at h
    · exact ⟨by simp [ownCause], raiseFail_eq h⟩
    · injection h with h; subst h; exact absurd ht hf
  | emit a =>
    simp only [exec, execEmit, command_pass hf ho hl] at h
    split at h
    · exact ⟨by simp [ownCause], raiseFail_eq h⟩
    · injection h with h; subst h; exact absurd ht hf
  | rleput a =>
    simp only [exec, execRleput, command_pass hf ho hl] at h
    split at h
    · exact ⟨by simp [ownCause], raiseFail_eq h⟩
    split at h
    · injection h with h; subst h; simp at ht
    split at h
    · injection h with h; subst h; simp at ht
    · injection h with h; subst h; simp at ht
  | rleend o =>
    simp only [exec, execRleend, command_pass hf ho hl] at h
    split at h
    · exact ⟨by simp [ownCause], raiseFail_eq h⟩
    · injection h with h; subst h; simp at ht

/-- CLEAR with operand 0 has its effect in every phase (R221). -/
theorem exec_clear (s : State) : exec (.clear 0) s = .next s.clear := by
  by_cases hf : s.phase = .fault
  · simp [exec, execClear, hf]
  · simp [exec, execClear, hf, command, operandLegal_eq_wellFormed, Instr.wellFormed, legalIn]

/-- A command that did not take effect leaves the block in FAULT. -/
theorem Unexecuted.phase_eq (h : Unexecuted i s t) : t.phase = .fault := by
  rcases h with ⟨h, rfl⟩ | ⟨-, c, -, rfl⟩
  · exact h
  · rfl

end Sys2Proof.Machine
end

