-- ==== Sys2Proof/Laws/Frequency.lean ====
section
/-!
SUPPORT. The frequency table as a whole: how NSYMS and TOTAL follow one changed entry
(10_state.md R44 items 1 and 2).
-/

namespace Sys2Proof.Machine

variable {s t : State} {a : Nat}

/-- A sum over a list without repeats follows one changed value. -/
theorem sum_map_update (l : List Nat) (hn : l.Nodup) (ha : a ∈ l) (g g' : Nat → Nat)
    (h : ∀ b, b ≠ a → g' b = g b) : (l.map g').sum + g a = (l.map g).sum + g' a := by
  induction l with
  | nil => cases ha
  | cons b l ih =>
    simp only [List.nodup_cons] at hn
    rcases List.mem_cons.1 ha with rfl | ha
    · have : l.map g' = l.map g := List.map_congr_left fun c hc => h c fun e => hn.1 (e ▸ hc)
      simp only [List.map_cons, List.sum_cons, this]
      omega
    · have := ih hn.2 ha
      have hb : g' b = g b := h b fun e => hn.1 (e ▸ ha)
      simp only [List.map_cons, List.sum_cons]
      omega

theorem length_filter_ne_zero (l : List Nat) (g : Nat → Nat) :
    (l.filter fun a => decide (g a ≠ 0)).length = (l.map fun a => entryCount (g a)).sum := by
  induction l with
  | nil => rfl
  | cons b l ih =>
    by_cases h : g b = 0 <;> simp [entryCount, h] at ih ⊢ <;> omega

/-- Where one entry of FREQ changes, the number of entries and the sum of counts change by what that
entry gains or loses. -/
theorem State.table_update (ha : a < s.par.nsym) (hp : t.par = s.par)
    (h : ∀ b, b ≠ a → t.freqAt b = s.freqAt b) :
    t.present.length + entryCount (s.freqAt a) = s.present.length + entryCount (t.freqAt a) ∧
      t.freqSum + s.freqAt a = s.freqSum + t.freqAt a := by
  constructor
  · simp only [State.present, length_filter_ne_zero, hp]
    exact sum_map_update _ List.nodup_range (by simpa) (fun a => entryCount (s.freqAt a))
      (fun a => entryCount (t.freqAt a)) fun b hb => by simp only [h b hb]
  · simp only [State.freqSum, hp]
    exact sum_map_update _ List.nodup_range (by simpa) s.freqAt t.freqAt h

theorem State.present_eq_nil (h : s.freq = []) : s.present = [] := by
  simp [State.present, State.freqAt, h]

theorem State.freqAt_le_freqSum (ha : a < s.par.nsym) : s.freqAt a ≤ s.freqSum :=
  List.le_sum_of_mem (List.mem_map_of_mem (by simpa))

end Sys2Proof.Machine
end

