-- ==== Sys2Proof/Laws/PerInstr.lean ====
section
/-!
SUPPORT. Statements about every command as syntax, one lemma per constructor: the command's word meets
the `match` and `mask` of its row of the opcode map (30_encoding.md R94).
-/

namespace Sys2Proof.Laws

/-- The `match` column of R94. -/
def matchOf : Instr → Word
  | .nop _ => 0x00000000#32
  | .clear _ => 0x01000000#32
  | .count _ => 0x10000000#32
  | .loadf _ => 0x11000000#32
  | .rdfreq _ => 0x12000000#32
  | .build _ => 0x20000000#32
  | .rdnode _ => 0x21000000#32
  | .gencode _ => 0x30000000#32
  | .rdcode _ => 0x32000000#32
  | .emit _ => 0x40000000#32
  | .rleput _ => 0x50000000#32
  | .rleend _ => 0x51000000#32

/-- The word of a command under the mask 0xFF000000 is its row's `match` (R94). -/
def OpcodeRow.Statement (i : Instr) : Prop := encode i &&& 0xFF000000#32 = matchOf i

theorem OpcodeRow.nop (opd : Opd) : OpcodeRow.Statement (.nop opd) := mask_append 0x00#8 opd
theorem OpcodeRow.clear (opd : Opd) : OpcodeRow.Statement (.clear opd) := mask_append 0x01#8 opd
theorem OpcodeRow.count (sym : Opd) : OpcodeRow.Statement (.count sym) := mask_append 0x10#8 sym
theorem OpcodeRow.loadf (sym : Opd) : OpcodeRow.Statement (.loadf sym) := mask_append 0x11#8 sym
theorem OpcodeRow.rdfreq (sym : Opd) : OpcodeRow.Statement (.rdfreq sym) := mask_append 0x12#8 sym
theorem OpcodeRow.build (opd : Opd) : OpcodeRow.Statement (.build opd) := mask_append 0x20#8 opd
theorem OpcodeRow.rdnode (idx : Opd) : OpcodeRow.Statement (.rdnode idx) := mask_append 0x21#8 idx
theorem OpcodeRow.gencode (opd : Opd) : OpcodeRow.Statement (.gencode opd) := mask_append 0x30#8 opd
theorem OpcodeRow.rdcode (sym : Opd) : OpcodeRow.Statement (.rdcode sym) := mask_append 0x32#8 sym
theorem OpcodeRow.emit (sym : Opd) : OpcodeRow.Statement (.emit sym) := mask_append 0x40#8 sym
theorem OpcodeRow.rleput (sym : Opd) : OpcodeRow.Statement (.rleput sym) := mask_append 0x50#8 sym
theorem OpcodeRow.rleend (opd : Opd) : OpcodeRow.Statement (.rleend opd) := mask_append 0x51#8 opd

end Sys2Proof.Laws
end

