-- ==== Sys2Proof/Laws/Rle.lean ====
section
/-!
SUPPORT. The decimal spelling of a count (44_rle.md R205).
-/

namespace Sys2Proof.Machine

/-- The number a list of decimal characters spells, most significant first. -/
def decValue (cs : List Nat) : Nat := cs.foldl (fun v c => 10 * v + (c - 0x30)) 0

/-- With turns enough for its bits, the loop puts the digits of `n` in front: they spell `n`, each is
a digit character, and the first is not '0' unless `n` is 0. -/
theorem decLoop_spec (k n : Nat) (tail : List Nat) (h : n < 2 ^ k) (hk : 0 < k) :
    ∃ ds, decLoop k n tail = ds ++ tail ∧ ds ≠ [] ∧
      (∀ c ∈ ds, 0x30 ≤ c ∧ c ≤ 0x39) ∧ (0 < n → ds.head? ≠ some 0x30) ∧
      decValue ds = n := by
  induction k generalizing n tail with
  | zero => omega
  | succ k ih =>
    unfold decLoop
    dsimp only
    split
    · refine ⟨[0x30 + n % 10], rfl, by simp, ?_, ?_, ?_⟩
      · intro c hc; simp only [List.mem_singleton] at hc; omega
      · intro hn; simp only [List.head?_cons, ne_eq, Option.some.injEq]; omega
      · simp only [decValue, List.foldl_cons, List.foldl_nil]; omega
    · rw [pow_succ] at h
      have hk' : 0 < k := by
        rcases Nat.eq_zero_or_pos k with rfl | hk'
        · simp only [pow_zero] at h; omega
        · exact hk'
      obtain ⟨ds, hds, hne, hc, hh, hv⟩ := ih (n / 10) ((0x30 + n % 10) :: tail) (by omega) hk'
      refine ⟨ds ++ [0x30 + n % 10], by simp [hds], by simp, ?_, ?_, ?_⟩
      · intro c hmem
        simp only [List.mem_append, List.mem_singleton] at hmem
        rcases hmem with hmem | rfl
        · exact hc c hmem
        · omega
      · intro _
        rw [List.head?_append_of_ne_nil _ hne]
        exact hh (by omega)
      · have hv' : List.foldl (fun v c => 10 * v + (c - 0x30)) 0 ds = n / 10 := hv
        simp only [decValue, List.foldl_append, hv', List.foldl_cons, List.foldl_nil]
        omega

/-- The decimal spelling of a count: digit characters, no leading zero, and it spells the count
(R205). -/
theorem dec_spec (n : Nat) :
    dec n ≠ [] ∧ (∀ c ∈ dec n, 0x30 ≤ c ∧ c ≤ 0x39) ∧ (0 < n → (dec n).head? ≠ some 0x30) ∧
      decValue (dec n) = n := by
  obtain ⟨ds, hds, h⟩ := decLoop_spec (n.log2 + 1) n [] (Nat.lt_log2_self) (by omega)
  rw [List.append_nil] at hds
  rw [dec, hds]
  exact h

/-- The loop puts at most m + 1 digits in front of a number below 10^(m+1). -/
theorem decLoop_length_le (k n : Nat) (tail : List Nat) (m : Nat) (h : n < 10 ^ (m + 1)) :
    (decLoop k n tail).length ≤ m + 1 + tail.length := by
  induction k generalizing n tail m with
  | zero => simp [decLoop]
  | succ k ih =>
    unfold decLoop
    dsimp only
    split
    · simp
    · cases m with
      | zero => omega
      | succ m =>
        have := ih (n / 10) ((0x30 + n % 10) :: tail) m (by rw [pow_succ] at h; omega)
        simp only [List.length_cons] at this
        omega

/-- Digit characters spell a number below 10 to their number. -/
theorem decValue_lt (cs : List Nat) (h : ∀ c ∈ cs, 0x30 ≤ c ∧ c ≤ 0x39) :
    decValue cs < 10 ^ cs.length := by
  suffices ∀ v, cs.foldl (fun v c => 10 * v + (c - 0x30)) v < (v + 1) * 10 ^ cs.length by
    simpa [decValue] using this 0
  induction cs with
  | nil => simp
  | cons c cs ih =>
    intro v
    have h1 := ih (fun c hc => h c (by simp [hc])) (10 * v + (c - 0x30))
    have h2 := h c (by simp)
    simp only [List.foldl_cons, List.length_cons, pow_succ]
    refine h1.trans_le ?_
    rw [mul_comm (10 ^ cs.length) 10, ← mul_assoc]
    exact Nat.mul_le_mul_right _ (by omega)

end Sys2Proof.Machine
end

