-- ==== Sys2Proof/Laws/Step.lean ====
section
/-!
SUPPORT. Everything a step can do, once (20_memory.md R61, R62, R71, 70_reset_and_hazards.md R270,
R272), and what a sequence of commands does.
-/

namespace Sys2Proof.Machine

variable {i : Instr} {is js : List Instr} {s t u : State} {w : Word}

theorem answer_next {r : Response} {o : Host.Outcome State Fault Refusal}
    (h : answer r o = .next t) : ∃ u, o = .next u ∧ t = u.respond r := by
  cases o with
  | next u => injection h with h; exact ⟨u, rfl, h.symm⟩
  | fault => cases h
  | refused => cases h

/-- A word written to CMD is a command, or has a reserved opcode and is ignored in FAULT and fails with
ILLEGAL_CMD outside it (R95). -/
theorem runWord_next (h : runWord w s = .next t) :
    (∃ i, decode w = .ok i ∧ exec i s = .next t) ∨
      (decode w = .error .illegalCmd ∧
        ((s.phase = .fault ∧ t = s) ∨ (s.phase ≠ .fault ∧ t = s.fail .illegalCmd w))) := by
  unfold runWord at h
  split at h
  · exact .inl ⟨_, ‹_›, h⟩
  · refine .inr ⟨‹_›, ?_⟩
    unfold raiseIllegal at h
    split at h <;> (injection h with h; simp_all)

/-- What one step can do: nothing where no input is in store; answer a read, or refuse an access; write
ARG; execute a command word; or reset. -/
theorem step_next (h : step s = .next t) :
    (s.inputs = [] ∧ t = s) ∨
      ∃ x rest, s.inputs = x :: rest ∧
        ((∃ y, x = .bus y ∧
            ((∃ r, t = { s with inputs := rest, response := some r }) ∨
              (∃ v, t = { s with inputs := rest, arg := v, response := some .okayWrite }) ∨
              ∃ w u, runWord w { s with inputs := rest } = .next u ∧ t = u.respond .okayWrite)) ∨
          t = { State.resetWith s.par with inputs := rest }) := by
  unfold step at h
  split at h
  · injection h with h; exact .inl ⟨‹_›, h.symm⟩
  rename_i x rest hi
  refine .inr ⟨x, rest, hi, ?_⟩
  cases x with
  | reset => injection h with h; subst h; exact .inr rfl
  | resetDuring x => injection h with h; subst h; exact .inr rfl
  | bus x =>
    refine .inl ⟨x, rfl, ?_⟩
    cases x with
    | read off size => injection h with h; subst h; exact .inl ⟨_, rfl⟩
    | write off size w =>
      simp only [takeInput, serve] at h
      split at h
      · obtain ⟨u, hu, rfl⟩ := answer_next h; exact .inr (.inr ⟨w, u, hu, rfl⟩)
      · injection h with h; subst h; exact .inr (.inl ⟨_, rfl⟩)
      · injection h with h; subst h; exact .inl ⟨_, rfl⟩

/-! ## Sequences of commands -/

theorem execAll_cons (h : exec i s = .next u) : execAll (i :: is) s = execAll is u := by
  simp [execAll, h]

theorem execAll_append (h : execAll is s = .next u) : execAll (is ++ js) s = execAll js u := by
  induction is generalizing s with
  | nil => injection h with h; subst h; rfl
  | cons i is ih =>
    simp only [List.cons_append, execAll] at h ⊢
    cases hx : exec i s with
    | next v => rw [hx] at h; exact ih h
    | fault => rw [hx] at h; cases h
    | refused => rw [hx] at h; cases h

theorem execAll_cons_next (h : execAll (i :: is) s = .next t) :
    ∃ u, exec i s = .next u ∧ execAll is u = .next t := by
  simp only [execAll] at h
  cases hx : exec i s with
  | next v => rw [hx] at h; exact ⟨v, rfl, h⟩
  | fault => rw [hx] at h; cases h
  | refused => rw [hx] at h; cases h

/-- In FAULT a sequence without CLEAR changes nothing (R243). -/
theorem execAll_ignored (hf : s.phase = .fault) (hn : ∀ i ∈ is, i ≠ .clear 0) :
    execAll is s = .next s := by
  induction is with
  | nil => rfl
  | cons i is ih =>
    rw [execAll_cons (exec_ignored hf (hn i (by simp)))]
    exact ih fun i hi => hn i (by simp [hi])

end Sys2Proof.Machine
end

