-- ==== Sys2Proof/Laws/Tree.lean ====
section
/-!
SUPPORT. What BUILD makes of a frequency table: the leaf loop, popmin, one merge, and the whole merge
as a tree that the node memory represents (41_tree_builder.md R143 to R150).
-/

namespace Sys2Proof.Machine

variable {node node' : Memory Node} {freq : Memory Nat} {b : Builder} {i j m x y : Nat}

/-- The symbols with a nonzero count among those listed. -/
def entries (freq : Memory Nat) (l : List Nat) : List Nat :=
  l.filter fun a => decide (Memory.read 0 a freq ≠ 0)

@[simp] theorem Builder.push_n (r : Node) : (b.push r).n = b.n + 1 := rfl
@[simp] theorem Builder.push_pq (r : Node) : (b.push r).pq = b.pq := rfl
theorem Builder.push_read (r : Node) :
    Memory.read Node.zero j (b.push r).node =
      if b.n = j then r else Memory.read Node.zero j b.node := Memory.read_write

/-- The leaf loop numbers one leaf per present symbol, in the order listed, and touches no other
record (R143). -/
theorem leafLoop_spec (l : List Nat) (b : Builder) :
    (l.foldl (addLeaf freq) b).n = b.n + (entries freq l).length ∧
    (l.foldl (addLeaf freq) b).pq = b.pq ∧
    (∀ k (h : k < (entries freq l).length),
      Memory.read Node.zero (b.n + k) (l.foldl (addLeaf freq) b).node =
        leafNode (Memory.read 0 (entries freq l)[k] freq) (entries freq l)[k]) ∧
    ∀ j, j < b.n ∨ b.n + (entries freq l).length ≤ j →
      Memory.read Node.zero j (l.foldl (addLeaf freq) b).node = Memory.read Node.zero j b.node := by
  induction l generalizing b with
  | nil => simp [entries]
  | cons a l ih =>
    by_cases ha : Memory.read 0 a freq = 0
    · have he : entries freq (a :: l) = entries freq l := by simp [entries, ha]
      simpa [addLeaf, ha, he] using ih b
    · have he : entries freq (a :: l) = a :: entries freq l := by simp [entries, ha]
      obtain ⟨hn, hp, hr, ho⟩ := ih (b.push (leafNode (Memory.read 0 a freq) a))
      simp only [List.foldl_cons, addLeaf, ha, if_false, he, List.length_cons]
      refine ⟨by rw [hn, Builder.push_n]; omega, by rw [hp, Builder.push_pq], ?_, ?_⟩
      · intro k hk
        cases k with
        | zero =>
          rw [Nat.add_zero, ho _ (.inl (by simp)), Builder.push_read, if_pos rfl]
          rfl
        | succ k =>
          have := hr k (by omega)
          rw [Builder.push_n] at this
          rw [show b.n + (k + 1) = b.n + 1 + k by omega, this]
          rfl
      · intro j hj
        rw [ho j (by simp only [Builder.push_n]; omega), Builder.push_read, if_neg (by omega)]

/-! ## The priority order -/

theorem before_iff : before node i j = true ↔
    (Memory.read Node.zero i node).freq < (Memory.read Node.zero j node).freq ∨
    ((Memory.read Node.zero i node).freq = (Memory.read Node.zero j node).freq ∧ i < j) := by
  simp [before]

theorem before_trans (h : before node i j = true) (h' : before node j m = true) :
    before node i m = true := by
  rw [before_iff] at *; omega

theorem before_total (h : i ≠ j) : before node i j = true ∨ before node j i = true := by
  simp only [before_iff]; omega

theorem least_mem (js : List Nat) : least node i js ∈ i :: js := by
  induction js generalizing i with
  | nil => simp [least]
  | cons j js ih =>
    unfold least
    have h := ih (i := if before node j i then j else i)
    split at h
    · rw [if_pos ‹_›]; exact List.mem_cons_of_mem _ h
    · rw [if_neg ‹_›]; simp only [List.mem_cons] at h ⊢; tauto

theorem least_before (js : List Nat) :
    ∀ m ∈ i :: js, m ≠ least node i js → before node (least node i js) m = true := by
  induction js generalizing i with
  | nil => simp [least]
  | cons j js ih =>
    intro m hm hne
    unfold least at hne ⊢
    have hi : ∀ q, q = i ∨ q = j → q ≠ (if before node j i then j else i) →
        before node (if before node j i then j else i) q = true := by
      intro q hq
      by_cases hb : before node j i = true
      · rw [if_pos hb]; rintro hqj
        rcases hq with rfl | rfl
        · exact hb
        · exact absurd rfl hqj
      · rw [if_neg hb]; rintro hqi
        exact (before_total hqi).resolve_left (by rwa [hq.resolve_left hqi])
    generalize hk : (if before node j i then j else i) = k at *
    have hcase : (m = i ∨ m = j) ∨ m ∈ js := by simp only [List.mem_cons] at hm; tauto
    rcases hcase with hm | hm
    · by_cases hmk : m = k
      · exact ih m (by simp [hmk]) hne
      · have h1 := hi m hm hmk
        by_cases hkl : k = least node k js
        · rw [← hkl]; exact h1
        · exact before_trans (ih k (by simp) hkl) h1
    · exact ih m (by simp [hm]) hne

/-- popmin returns the least index of the queue, and the queue without it (R144). -/
theorem popmin_spec {pq : List Nat} (h : pq ≠ []) :
    ∃ m ∈ pq, popmin node pq = some (m, pq.erase m) ∧
      ∀ j ∈ pq, j ≠ m → before node m j = true := by
  cases pq with
  | nil => exact absurd rfl h
  | cons i is => exact ⟨least node i is, least_mem is, rfl, least_before is⟩

/-- One merge of a queue of two or more: its two least indices make way for the new node's (R145). -/
theorem mergeStep_spec (h : 1 < b.pq.length) :
    ∃ x y, x ∈ b.pq ∧ y ∈ b.pq.erase x ∧
      (∀ j ∈ b.pq, j ≠ x → before b.node x j = true) ∧
      (∀ j ∈ b.pq.erase x, j ≠ y → before b.node y j = true) ∧
      mergeStep b =
        { b.push (mergeNode b.node x y) with pq := (b.pq.erase x).erase y ++ [b.n] } := by
  obtain ⟨x, hx, hpx, hxl⟩ := popmin_spec (node := b.node) (pq := b.pq) (by rintro h'; simp [h'] at h)
  have hlen := List.length_erase_of_mem hx
  obtain ⟨y, hy, hpy, hyl⟩ :=
    popmin_spec (node := b.node) (pq := b.pq.erase x) (by rintro h'; simp [h'] at hlen; omega)
  exact ⟨x, y, hx, hy, hxl, hyl, by simp only [mergeStep, hpx, hpy]⟩

/-! ## The tree the node memory represents -/

/-- A binary tree with a frequency and a symbol at each leaf. -/
inductive HTree where
  | leaf (f a : Nat)
  | node (l r : HTree)
deriving DecidableEq, Repr

namespace HTree

def weight : HTree → Nat
  | .leaf f _ => f
  | .node l r => l.weight + r.weight

def size : HTree → Nat
  | .leaf _ _ => 1
  | .node l r => l.size + r.size + 1

/-- The leaves, left to right. -/
def leaves : HTree → List (Nat × Nat)
  | .leaf f a => [(f, a)]
  | .node l r => l.leaves ++ r.leaves

/-- The sum of the frequencies of the internal nodes. -/
def inner : HTree → Nat
  | .leaf _ _ => 0
  | .node l r => l.inner + r.inner + (l.weight + r.weight)

end HTree

/-- Record `i` and the records below it are the tree `T`, children at smaller indices. -/
inductive Rep (node : Memory Node) : Nat → HTree → Prop where
  | leaf {i f a : Nat} : Memory.read Node.zero i node = leafNode f a → Rep node i (.leaf f a)
  | node {i x y : Nat} {l r : HTree} :
      Memory.read Node.zero i node =
        { freq := l.weight + r.weight, leaf := false, sym := 0, left := x, right := y } →
      x < i → y < i → Rep node x l → Rep node y r → Rep node i (.node l r)

theorem Rep.freq_eq {T : HTree} (h : Rep node i T) : (Memory.read Node.zero i node).freq = T.weight := by
  cases h with
  | leaf h => rw [h]; rfl
  | node h _ _ _ _ => rw [h]; rfl

theorem Rep.congr {T : HTree} (h : Rep node i T)
    (hr : ∀ j ≤ i, Memory.read Node.zero j node' = Memory.read Node.zero j node) : Rep node' i T := by
  induction h with
  | leaf h => exact .leaf (by rw [hr _ le_rfl, h])
  | node h hx hy _ _ ihl ihr =>
    exact .node (by rw [hr _ le_rfl, h]) hx hy (ihl fun j hj => hr j (by omega))
      (ihr fun j hj => hr j (by omega))

/-- Not yet a child of any of the internal nodes L … k−1. -/
def Free (node : Memory Node) (L k j : Nat) : Prop :=
  j < k ∧ ∀ m, L ≤ m → m < k →
    (Memory.read Node.zero m node).left ≠ j ∧ (Memory.read Node.zero m node).right ≠ j

/-- Record `k` merges the two least of the nodes free before it (R144, R145). -/
def Merged (node : Memory Node) (L k : Nat) : Prop :=
  ∃ x y, x ≠ y ∧ Free node L k x ∧ Free node L k y ∧
    (∀ j, Free node L k j → j ≠ x → before node x j = true) ∧
    (∀ j, Free node L k j → j ≠ x → j ≠ y → before node y j = true) ∧
    Memory.read Node.zero k node =
      { freq := (Memory.read Node.zero x node).freq + (Memory.read Node.zero y node).freq
        leaf := false, sym := 0, left := x, right := y }

theorem before_congr (hi : Memory.read Node.zero i node' = Memory.read Node.zero i node)
    (hj : Memory.read Node.zero j node' = Memory.read Node.zero j node) :
    before node' i j = before node i j := by
  simp [before, hi, hj]

theorem Free.congr {L k : Nat}
    (hr : ∀ m < k, Memory.read Node.zero m node' = Memory.read Node.zero m node) :
    Free node' L k j ↔ Free node L k j := by
  unfold Free
  refine and_congr_right fun _ => forall_congr' fun m => forall_congr' fun _ => forall_congr' fun hm => ?_
  rw [hr m hm]

theorem Merged.congr {L k : Nat} (h : Merged node L k)
    (hr : ∀ m ≤ k, Memory.read Node.zero m node' = Memory.read Node.zero m node) :
    Merged node' L k := by
  obtain ⟨x, y, hxy, hx, hy, hx', hy', hk⟩ := h
  have hF : ∀ j, Free node' L k j ↔ Free node L k j := fun j => Free.congr fun m hm => hr m (by omega)
  have hlt : ∀ j, Free node L k j → Memory.read Node.zero j node' = Memory.read Node.zero j node :=
    fun j hj => hr j (by have := hj.1; omega)
  refine ⟨x, y, hxy, (hF x).2 hx, (hF y).2 hy, fun j hj hne => ?_, fun j hj hne hne' => ?_, ?_⟩
  · rw [before_congr (hlt x hx) (hlt j ((hF j).1 hj))]; exact hx' j ((hF j).1 hj) hne
  · rw [before_congr (hlt y hy) (hlt j ((hF j).1 hj))]; exact hy' j ((hF j).1 hj) hne hne'
  · rw [hr k le_rfl, hk, hlt x hx, hlt y hy]

/-- What holds of BUILD's micro-state between two merges, over the leaf list `ls` (as (frequency,
symbol) pairs by index) and the trees `T` of the queued nodes. -/
structure Forest (ls : List (Nat × Nat)) (T : Nat → HTree) (b : Builder) : Prop where
  len : b.n + b.pq.length = 2 * ls.length
  ge : ls.length ≤ b.n
  last : b.pq.getLast? = some (b.n - 1)
  nodup : b.pq.Nodup
  leaf : ∀ k (h : k < ls.length),
    Memory.read Node.zero k b.node = leafNode (ls[k]).1 (ls[k]).2
  queued : ∀ j, j ∈ b.pq ↔ Free b.node ls.length b.n j
  merged : ∀ k, ls.length ≤ k → k < b.n → Merged b.node ls.length k
  rep : ∀ j ∈ b.pq, Rep b.node j (T j)
  size : (b.pq.map fun j => (T j).size).sum = b.n
  leaves : (b.pq.flatMap fun j => (T j).leaves).Perm ls
  inner : (b.pq.map fun j => (T j).inner).sum =
    ((List.range b.n).drop ls.length |>.map fun k => (Memory.read Node.zero k b.node).freq).sum

/-- A merge keeps the forest. -/
theorem Forest.mergeStep {ls : List (Nat × Nat)} {T : Nat → HTree} (h : Forest ls T b)
    (hlen : 1 < b.pq.length) :
    ∃ T', Forest ls T' (mergeStep b) ∧ (Sys2Proof.Machine.mergeStep b).pq.length + 1 = b.pq.length ∧
      ∀ j, b.n < j → Memory.read Node.zero j (Sys2Proof.Machine.mergeStep b).node =
        Memory.read Node.zero j b.node := by
  obtain ⟨x, y, hx, hy, hxl, hyl, hstep⟩ := mergeStep_spec hlen
  have hlx := List.length_erase_of_mem hx
  have hly := List.length_erase_of_mem hy
  have hxy : y ≠ x := fun he => by
    rw [he] at hy; exact (List.Nodup.not_mem_erase h.nodup) hy
  have hmemy : y ∈ b.pq := List.mem_of_mem_erase hy
  have hlt : ∀ j ∈ b.pq, j < b.n := fun j hj => ((h.queued j).1 hj).1
  set rest := (b.pq.erase x).erase y with hrest
  have hperm : b.pq.Perm (x :: y :: rest) :=
    (List.perm_cons_erase hx).trans ((List.perm_cons_erase hy).cons x)
  have hnd : (x :: y :: rest).Nodup := hperm.nodup_iff.1 h.nodup
  have hL := h.ge
  rw [hstep]
  set node' := (b.push (mergeNode b.node x y)).node with hnode'
  have hread : ∀ j, Memory.read Node.zero j node' =
      if b.n = j then mergeNode b.node x y else Memory.read Node.zero j b.node :=
    fun j => Builder.push_read _
  have hold : ∀ j, j < b.n → Memory.read Node.zero j node' = Memory.read Node.zero j b.node :=
    fun j hj => by rw [hread, if_neg (by omega)]
  have hnew : Memory.read Node.zero b.n node' = mergeNode b.node x y := by rw [hread, if_pos rfl]
  let T' : Nat → HTree := fun j => if j = b.n then .node (T x) (T y) else T j
  have hT' : ∀ j ∈ rest, T' j = T j := fun j hj => by
    have : j < b.n := hlt j (List.mem_of_mem_erase (List.mem_of_mem_erase hj))
    simp only [T']; rw [if_neg (by omega)]
  have hTn : T' b.n = .node (T x) (T y) := by simp [T']
  have hF : ∀ j, Free node' ls.length b.n j ↔ Free b.node ls.length b.n j :=
    fun j => Free.congr hold
  refine ⟨T', ?_, ?_, fun j hj => ?_⟩
  · refine
      { len := ?_, ge := ?_, last := ?_, nodup := ?_, leaf := ?_, queued := ?_, merged := ?_, rep := ?_
        size := ?_, leaves := ?_, inner := ?_ }
    · have := h.len
      simp only [Builder.push_n, List.length_append, List.length_singleton]
      omega
    · simp only [Builder.push_n]; omega
    · simp
    · refine List.Nodup.append (List.nodup_cons.1 (List.nodup_cons.1 hnd).2).2 (by simp) ?_
      simp only [List.disjoint_singleton]
      intro hmem
      exact absurd (hlt _ (List.mem_of_mem_erase (List.mem_of_mem_erase hmem))) (lt_irrefl _)
    · intro k hk
      rw [show (_ : Builder).node = node' from rfl, hold k (by omega)]
      exact h.leaf k hk
    · intro j
      simp only [Builder.push_n, List.mem_append, List.mem_singleton]
      have hmrest : j ∈ rest ↔ j ∈ b.pq ∧ j ≠ x ∧ j ≠ y := by
        rw [hperm.mem_iff]
        simp only [List.nodup_cons, List.mem_cons, not_or] at hnd ⊢
        constructor
        · intro hj
          exact ⟨.inr (.inr hj), fun e => hnd.1.2 (e ▸ hj), fun e => hnd.2.1 (e ▸ hj)⟩
        · rintro ⟨h1, h2, h3⟩
          tauto
      constructor
      · rintro (hj | rfl)
        · rw [hmrest] at hj
          obtain ⟨hjq, hjx, hjy⟩ := hj
          have hfree := (hF j).2 ((h.queued j).1 hjq)
          refine ⟨by have := hfree.1; omega, fun m hm hmk => ?_⟩
          rcases Nat.lt_succ_iff_lt_or_eq.1 hmk with hmk | rfl
          · exact hfree.2 m hm hmk
          · rw [show (_ : Builder).node = node' from rfl, hnew]
            exact ⟨fun e => hjx e.symm, fun e => hjy e.symm⟩
        · refine ⟨by omega, fun m hm hmk => ?_⟩
          rcases Nat.lt_succ_iff_lt_or_eq.1 hmk with hmk | rfl
          · obtain ⟨u, v, -, hu, hv, -, -, hrec⟩ := h.merged m hm hmk
            rw [show (_ : Builder).node = node' from rfl, hold m hmk, hrec]
            have := hu.1; have := hv.1
            exact ⟨by simp only; omega, by simp only; omega⟩
          · rw [show (_ : Builder).node = node' from rfl, hnew]
            have := hlt x hx; have := hlt y hmemy
            exact ⟨by simp only [mergeNode]; omega, by simp only [mergeNode]; omega⟩
      · rintro ⟨hj, hfree⟩
        rcases Nat.lt_succ_iff_lt_or_eq.1 hj with hj | rfl
        · refine .inl (hmrest.2 ⟨(h.queued j).2 ((hF j).1 ⟨hj, fun m hm hmk => hfree m hm (by omega)⟩), ?_, ?_⟩)
          · have := (hfree b.n hL (by omega)).1
            rw [show (_ : Builder).node = node' from rfl, hnew] at this
            exact fun e => this e.symm
          · have := (hfree b.n hL (by omega)).2
            rw [show (_ : Builder).node = node' from rfl, hnew] at this
            exact fun e => this e.symm
        · exact .inr rfl
    · intro k hk hkn
      simp only [Builder.push_n] at hkn
      rcases Nat.lt_succ_iff_lt_or_eq.1 hkn with hkn | rfl
      · exact (h.merged k hk hkn).congr fun m hm => hold m (by omega)
      · have hq : ∀ j, Free node' ls.length b.n j → j ∈ b.pq := fun j hj => (h.queued j).2 ((hF j).1 hj)
        refine ⟨x, y, hxy.symm, (hF x).2 ((h.queued x).1 hx), (hF y).2 ((h.queued y).1 hmemy),
          fun j hj hne => ?_, fun j hj hne hne' => ?_, ?_⟩
        · rw [before_congr (hold x (hlt x hx)) (hold j hj.1)]
          exact hxl j (hq j hj) hne
        · rw [before_congr (hold y (hlt y hmemy)) (hold j hj.1)]
          exact hyl j ((List.mem_erase_of_ne hne).2 (hq j hj)) hne'
        · show Memory.read Node.zero b.n node' = _
          rw [hnew, hold x (hlt x hx), hold y (hlt y hmemy)]; rfl
    · intro j hj
      simp only [List.mem_append, List.mem_singleton] at hj
      have hrep : ∀ j ∈ b.pq, Rep node' j (T j) := fun j hj =>
        (h.rep j hj).congr fun m hm => hold m (by have := hlt j hj; omega)
      rcases hj with hj | rfl
      · rw [hT' j hj]
        exact hrep j (List.mem_of_mem_erase (List.mem_of_mem_erase hj))
      · rw [hTn]
        refine .node ?_ (hlt x hx) (hlt y hmemy) (hrep x hx) (hrep y hmemy)
        show Memory.read Node.zero b.n node' = _
        rw [hnew, mergeNode, (h.rep x hx).freq_eq, (h.rep y hmemy).freq_eq]
    · have hs := h.size
      rw [(hperm.map _).sum_eq] at hs
      simp only [List.map_cons, List.sum_cons] at hs
      simp only [List.map_append, List.map_cons, List.map_nil, List.sum_append, List.sum_cons,
        List.sum_nil, hTn, HTree.size, Builder.push_n]
      rw [List.map_congr_left fun j hj => by rw [hT' j hj]]
      omega
    · have hl := h.leaves
      refine List.Perm.trans ?_ hl
      refine List.Perm.trans ?_ (hperm.flatMap_right _).symm
      simp only [List.flatMap_append, List.flatMap_cons, List.flatMap_nil, hTn, HTree.leaves,
        List.append_nil]
      rw [List.flatMap_congr fun j hj => by rw [hT' j hj]]
      rw [← List.append_assoc (T x).leaves]
      exact List.perm_append_comm
    · have hs := h.inner
      rw [(hperm.map _).sum_eq] at hs
      simp only [List.map_cons, List.sum_cons] at hs
      simp only [List.map_append, List.map_cons, List.map_nil, List.sum_append, List.sum_cons,
        List.sum_nil, hTn, HTree.inner, Builder.push_n]
      rw [List.map_congr_left fun j hj => by rw [hT' j hj]]
      rw [List.range_succ, List.drop_append_of_le_length (by simpa using hL)]
      simp only [List.map_append, List.map_cons, List.map_nil, List.sum_append, List.sum_cons,
        List.sum_nil]
      have hfn : (Memory.read Node.zero b.n node').freq = (T x).weight + (T y).weight := by
        rw [hnew, mergeNode, (h.rep x hx).freq_eq, (h.rep y hmemy).freq_eq]
      have hmap : ((List.range b.n).drop ls.length).map
            (fun k => (Memory.read Node.zero k node').freq) =
          ((List.range b.n).drop ls.length).map
            (fun k => (Memory.read Node.zero k b.node).freq) :=
        List.map_congr_left fun k hk => by
          rw [hold k (by simpa using List.mem_of_mem_drop hk)]
      show _ = (List.map (fun k => (Memory.read Node.zero k node').freq) _).sum +
        ((Memory.read Node.zero b.n node').freq + 0)
      rw [hmap, hfn]
      omega
  · simp only [List.length_append, List.length_singleton]; omega
  · show Memory.read Node.zero j node' = _
    rw [hread, if_neg (by omega)]

/-- The leaf list of a table: (count, symbol) of each present symbol, ascending (R143). -/
def leafList (p : Params) (freq : Memory Nat) : List (Nat × Nat) :=
  (entries freq (List.range p.nsym)).map fun a => (Memory.read 0 a freq, a)

/-- The micro-state before the first merge is a forest of single leaves. -/
theorem Forest.init {p : Params} (h : leafList p freq ≠ []) :
    (initBuilder p freq node).n = (leafList p freq).length ∧
    (∃ T, Forest (leafList p freq) T (initBuilder p freq node)) ∧
    ∀ j, (leafList p freq).length ≤ j →
      Memory.read Node.zero j (initBuilder p freq node).node = Memory.read Node.zero j node := by
  obtain ⟨hn, -, hr, ho⟩ :=
    leafLoop_spec (freq := freq) (List.range p.nsym) { node := node, pq := [], n := 0 }
  set ls := leafList p freq with hls
  have hlen : (entries freq (List.range p.nsym)).length = ls.length := by simp [hls, leafList]
  have hpos : 0 < ls.length := List.length_pos_of_ne_nil h
  set b := (List.range p.nsym).foldl (addLeaf freq) { node := node, pq := [], n := 0 } with hb
  have hbn : b.n = ls.length := by simpa [hlen] using hn
  have hinit : initBuilder p freq node = { b with pq := List.range b.n } := rfl
  have hleaf : ∀ k (hk : k < ls.length),
      Memory.read Node.zero k b.node = leafNode (ls[k]).1 (ls[k]).2 := by
    intro k hk
    have := hr k (hlen ▸ hk)
    simpa [hls, leafList] using this
  rw [hinit]
  refine ⟨hbn, ⟨fun j => if hj : j < ls.length then .leaf (ls[j]).1 (ls[j]).2 else .leaf 0 0, ?_⟩, ?_⟩
  · refine
      { len := ?_, ge := ?_, last := ?_, nodup := ?_, leaf := hleaf, queued := ?_, merged := ?_
        rep := ?_, size := ?_, leaves := ?_, inner := ?_ }
    · simp only [List.length_range, hbn]; omega
    · simp only [hbn]; exact le_rfl
    · simp only [hbn]
      obtain ⟨k, hk⟩ : ∃ k, ls.length = k + 1 := ⟨ls.length - 1, by omega⟩
      rw [hk, List.range_succ]; simp
    · exact List.nodup_range
    · intro j
      simp only [List.mem_range, hbn, Free]
      exact ⟨fun hj => ⟨hj, fun m hm hm' => by omega⟩, fun hj => hj.1⟩
    · intro k hk hk'; simp only [hbn] at hk'; omega
    · intro j hj
      have hj : j < ls.length := by simpa [hbn] using hj
      simp only [hj, dif_pos]
      exact .leaf (hleaf j hj)
    · have hone : ((List.range b.n).map fun j => (if hj : j < ls.length then
          HTree.leaf (ls[j]).1 (ls[j]).2 else .leaf 0 0).size) = (List.range b.n).map fun _ => 1 :=
        List.map_congr_left fun j _ => by split <;> rfl
      simp only [hone, List.map_const', List.length_range, List.sum_replicate, smul_eq_mul, mul_one]
    · refine List.Perm.of_eq ?_
      rw [hbn]
      refine List.ext_getElem? fun k => ?_
      have hflat : ((List.range ls.length).flatMap fun j => (if hj : j < ls.length then
          HTree.leaf (ls[j]).1 (ls[j]).2 else .leaf 0 0).leaves) =
          (List.range ls.length).map fun j => if hj : j < ls.length then ls[j] else (0, 0) := by
        rw [List.map_eq_flatMap]
        refine List.flatMap_congr fun j hj => ?_
        have hj : j < ls.length := by simpa using hj
        simp only [hj, dif_pos, HTree.leaves]
      rw [hflat, List.getElem?_map]
      by_cases hk : k < ls.length
      · simp [hk]
      · simp [hk]
    · have hzero : ((List.range ls.length).map fun j => (if hj : j < ls.length then
          HTree.leaf (ls[j]).1 (ls[j]).2 else .leaf 0 0).inner) =
          (List.range ls.length).map fun _ => 0 :=
        List.map_congr_left fun j _ => by split <;> rfl
      simp only [hbn]
      rw [hzero, List.drop_of_length_le (by simp)]
      simp
  · intro j hj
    exact ho j (.inr (by simpa [hlen] using hj))

/-- The merges end with one index in the queue, the last node's (R146). -/
theorem Forest.mergeLoop {ls : List (Nat × Nat)} :
    ∀ (k : Nat) (b : Builder) (T : Nat → HTree), Forest ls T b → b.pq.length ≤ k + 1 →
      ∃ T', Forest ls T' (mergeLoop k b) ∧ (Sys2Proof.Machine.mergeLoop k b).pq.length = 1 ∧
        b.n ≤ (Sys2Proof.Machine.mergeLoop k b).n ∧
        ∀ j, (Sys2Proof.Machine.mergeLoop k b).n ≤ j →
          Memory.read Node.zero j (Sys2Proof.Machine.mergeLoop k b).node =
            Memory.read Node.zero j b.node := by
  intro k
  induction k with
  | zero =>
    intro b T h hk
    have : b.pq ≠ [] := by
      intro he; have := h.last; simp [he] at this
    have := List.length_pos_of_ne_nil this
    exact ⟨T, h, by simp only [Sys2Proof.Machine.mergeLoop]; omega, le_rfl, fun _ _ => rfl⟩
  | succ k ih =>
    intro b T h hk
    by_cases hlen : 1 < b.pq.length
    · obtain ⟨T', h', hl', hr'⟩ := h.mergeStep hlen
      obtain ⟨T'', h'', hone, hn, hr''⟩ := ih _ T' h' (by omega)
      have hstep : (Sys2Proof.Machine.mergeStep b).n = b.n + 1 := by
        have h1 := h.len; have h2 := h'.len; omega
      simp only [Sys2Proof.Machine.mergeLoop, if_pos hlen]
      refine ⟨T'', h'', hone, by omega, fun j hj => ?_⟩
      rw [hr'' j hj, hr' j (by omega)]
    · have : b.pq ≠ [] := by
        intro he; have := h.last; simp [he] at this
      have := List.length_pos_of_ne_nil this
      rw [show Sys2Proof.Machine.mergeLoop (k + 1) b = b by
        simp only [Sys2Proof.Machine.mergeLoop, if_neg hlen]]
      exact ⟨T, h, by omega, le_rfl, fun _ _ => rfl⟩

/-- What BUILD leaves, for a table with an entry: the root is the last node, there are 2·L − 1 nodes,
the leaves come first and in symbol order, each internal node merges the two least nodes free before
it, the records are a tree whose leaves are the table's, and no record from NNODES on is touched
(R143 to R146, R150). -/
theorem buildTree_spec {p : Params} (h : leafList p freq ≠ []) :
    ∃ T, (buildTree p freq node).pq = [(buildTree p freq node).n - 1] ∧
      (buildTree p freq node).n + 1 = 2 * (leafList p freq).length ∧
      (∀ k (hk : k < (leafList p freq).length),
        Memory.read Node.zero k (buildTree p freq node).node =
          leafNode ((leafList p freq)[k]).1 ((leafList p freq)[k]).2) ∧
      (∀ k, (leafList p freq).length ≤ k → k < (buildTree p freq node).n →
        Merged (buildTree p freq node).node (leafList p freq).length k) ∧
      Rep (buildTree p freq node).node ((buildTree p freq node).n - 1) T ∧
      T.size = (buildTree p freq node).n ∧
      T.leaves.Perm (leafList p freq) ∧
      T.inner = ((List.range (buildTree p freq node).n).drop (leafList p freq).length |>.map
        fun k => (Memory.read Node.zero k (buildTree p freq node).node).freq).sum ∧
      (∀ j, Free (buildTree p freq node).node (leafList p freq).length (buildTree p freq node).n j ↔
        j = (buildTree p freq node).n - 1) ∧
      ∀ j, (buildTree p freq node).n ≤ j →
        Memory.read Node.zero j (buildTree p freq node).node = Memory.read Node.zero j node := by
  obtain ⟨hn, ⟨T, hT⟩, ho⟩ := Forest.init (node := node) h
  obtain ⟨T', hF, hone, hle, hr⟩ := Forest.mergeLoop _ _ T hT (Nat.le_succ _)
  have hpos : 0 < (leafList p freq).length := List.length_pos_of_ne_nil h
  have hb : buildTree p freq node =
      mergeLoop (initBuilder p freq node).pq.length (initBuilder p freq node) := rfl
  rw [← hb] at hF hone hle hr
  have hpq : (buildTree p freq node).pq = [(buildTree p freq node).n - 1] := by
    obtain ⟨r, hr⟩ := List.length_eq_one_iff.1 hone
    have := hF.last
    rw [hr] at this ⊢
    simpa using this
  have hmem : (buildTree p freq node).n - 1 ∈ (buildTree p freq node).pq := by simp [hpq]
  refine ⟨T' ((buildTree p freq node).n - 1), hpq, by have := hF.len; omega, hF.leaf, hF.merged,
    hF.rep _ hmem, ?_, ?_, ?_, ?_, ?_⟩
  · simpa [hpq] using hF.size
  · simpa [hpq] using hF.leaves
  · simpa [hpq] using hF.inner
  · intro j; rw [← hF.queued, hpq, List.mem_singleton]
  · intro j hj
    rw [hr j hj, ho j (by omega)]

/-! ## The same, of a state -/

/-- The leaf list of a state's table: its present symbols with their counts. -/
theorem leafList_eq (s : State) : leafList s.par s.freq = s.present.map fun a => (s.freqAt a, a) := rfl

theorem State.mem_present {s : State} {a : Nat} :
    a ∈ s.present ↔ a < s.par.nsym ∧ s.freqAt a ≠ 0 := by simp [State.present]

theorem State.present_sorted (s : State) : s.present.Pairwise (· < ·) :=
  List.Pairwise.filter _ List.pairwise_lt_range

theorem State.present_nodup (s : State) : s.present.Nodup := s.present_sorted.imp Nat.ne_of_lt

/-- `t` is `s` with the tree of the table of `s` built into NODE (R141 to R150). -/
structure Built (s t : State) : Prop where
  ne : s.present ≠ []
  root : t.root + 1 = t.nnodes
  count : t.nnodes + 1 = 2 * s.present.length
  leaf : ∀ k (h : k < s.present.length),
    t.nodeAt k = leafNode (s.freqAt s.present[k]) s.present[k]
  merged : ∀ k, s.present.length ≤ k → k < t.nnodes → Merged t.node s.present.length k
  tree : ∃ T, Rep t.node t.root T ∧ T.size = t.nnodes ∧
    T.leaves.Perm (s.present.map fun a => (s.freqAt a, a)) ∧
    T.inner = (((List.range t.nnodes).drop s.present.length).map fun k => (t.nodeAt k).freq).sum
  free : ∀ j, Free t.node s.present.length t.nnodes j ↔ j = t.root
  old : ∀ j, t.nnodes ≤ j → t.nodeAt j = s.nodeAt j
  upd : t = { s with node := t.node, nnodes := t.nnodes, root := t.root, phase := .htree }
  eq : buildTree s.par s.freq s.node = { node := t.node, pq := [t.root], n := t.nnodes }

theorem buildTree_pq_nil {p : Params} (h : leafList p freq = []) : (buildTree p freq node).pq = [] := by
  have he : entries freq (List.range p.nsym) = [] := by simpa [leafList] using h
  obtain ⟨hn, -⟩ :=
    leafLoop_spec (freq := freq) (List.range p.nsym) { node := node, pq := [], n := 0 }
  rw [he] at hn
  have : (initBuilder p freq node).pq = [] := by simp only [initBuilder, hn]; rfl
  simp [buildTree, this, mergeLoop]

/-- Where the merge ends with a root, the state BUILD leaves is as `Built` says. -/
theorem Built.of_pq {s : State} {r : Nat} {rest : List Nat}
    (h : (buildTree s.par s.freq s.node).pq = r :: rest) :
    Built s { s with
              node := (buildTree s.par s.freq s.node).node
              root := r
              nnodes := (buildTree s.par s.freq s.node).n
              phase := .htree } := by
  have hne : leafList s.par s.freq ≠ [] := fun he => by rw [buildTree_pq_nil he] at h; cases h
  obtain ⟨T, h1, h2, h3, h4, h5, h6, h7, h8, h9, h10⟩ := buildTree_spec (node := s.node) hne
  have hr : r = (buildTree s.par s.freq s.node).n - 1 := by
    rw [h1] at h; injection h with h; exact h.symm
  have hlen : (leafList s.par s.freq).length = s.present.length := by rw [leafList_eq, List.length_map]
  have hne' : s.present ≠ [] := fun he => by rw [leafList_eq, he] at hne; exact hne rfl
  have hpos := List.length_pos_of_ne_nil hne'
  rw [hlen] at h2 h4 h8
  simp only [hlen] at h9
  exact
    { ne := hne'
      root := by dsimp only; omega
      count := h2
      leaf := fun k hk => by
        have := h3 k (hlen ▸ hk)
        simp only [leafList_eq, List.getElem_map] at this
        exact this
      merged := h4
      tree := ⟨T, by subst hr; exact h5, h6, h7, h8⟩
      free := by subst hr; exact h9
      old := h10
      upd := rfl
      eq := by rw [← hr] at h1; dsimp only; rw [← h1] }

theorem wf_addLeaf {a : Nat} (h : Memory.wf Node.zero b.node = true) :
    Memory.wf Node.zero (addLeaf freq b a).node = true := by
  unfold addLeaf
  split
  · exact h
  · exact Memory.wf_write h

theorem wf_mergeStep (h : Memory.wf Node.zero b.node = true) :
    Memory.wf Node.zero (mergeStep b).node = true := by
  unfold mergeStep
  split
  · exact h
  split
  · exact h
  · exact Memory.wf_write h

/-- BUILD keeps the canonical form of NODE. -/
theorem wf_buildTree {p : Params} (h : Memory.wf Node.zero node = true) :
    Memory.wf Node.zero (buildTree p freq node).node = true := by
  have h1 : ∀ (l : List Nat) (b : Builder), Memory.wf Node.zero b.node = true →
      Memory.wf Node.zero (l.foldl (addLeaf freq) b).node = true := by
    intro l
    induction l with
    | nil => exact fun _ h => h
    | cons a l ih => exact fun b h => ih _ (wf_addLeaf h)
  have h2 : ∀ k (b : Builder), Memory.wf Node.zero b.node = true →
      Memory.wf Node.zero (mergeLoop k b).node = true := by
    intro k
    induction k with
    | zero => exact fun _ h => h
    | succ k ih =>
      intro b h
      unfold mergeLoop
      split
      · exact ih _ (wf_mergeStep h)
      · exact h
  exact h2 _ _ (h1 _ _ h)

end Sys2Proof.Machine
end

