-- ==== Sys2Proof/Laws/Walk.lean ====
section
/-!
SUPPORT. What GENCODE makes of a tree: the paths of its leaves, written into CODE by the walk
(42_code_table.md R172 to R175).
-/

namespace Sys2Proof.Machine

variable {node : Memory Node} {T : HTree} {i a a' : Nat} {p q q' : Code}

namespace HTree

/-- The path of each leaf, with its symbol, left to right (R172). -/
def paths : HTree → List (Nat × Code)
  | .leaf _ a => [(a, [])]
  | .node l r => (l.paths.map fun e => (e.1, false :: e.2)) ++ r.paths.map fun e => (e.1, true :: e.2)

/-- The codes of the tree: the paths, and "0" for the symbol of a one-leaf tree (R173). -/
def codes : HTree → List (Nat × Code)
  | .leaf _ a => [(a, [false])]
  | .node l r => (HTree.node l r).paths

theorem paths_fst (T : HTree) : T.paths.map Prod.fst = T.leaves.map Prod.snd := by
  induction T with
  | leaf => rfl
  | node l r ihl ihr => simp [paths, leaves, ← ihl, ← ihr, Function.comp_def]

theorem codes_fst (T : HTree) : T.codes.map Prod.fst = T.leaves.map Prod.snd := by
  cases T with
  | leaf => rfl
  | node l r => exact paths_fst _

theorem leaves_pos (T : HTree) : 0 < T.leaves.length := by
  induction T with
  | leaf => simp [leaves]
  | node l r ihl _ => simp [leaves]; omega

theorem size_add_one (T : HTree) : T.size + 1 = 2 * T.leaves.length := by
  induction T with
  | leaf => rfl
  | node l r ihl ihr => simp only [size, leaves, List.length_append]; omega

/-- A leaf of a tree of L leaves lies at most L − 1 deep (R150 item 8). -/
theorem path_length (T : HTree) : ∀ e ∈ T.paths, e.2.length + 1 ≤ T.leaves.length := by
  induction T with
  | leaf => simp [paths, leaves]
  | node l r ihl ihr =>
    intro e he
    have hl := leaves_pos l
    have hr := leaves_pos r
    simp only [paths, List.mem_append, List.mem_map] at he
    simp only [leaves, List.length_append]
    rcases he with ⟨e', he', rfl⟩ | ⟨e', he', rfl⟩
    · have := ihl e' he'; simp only [List.length_cons]; omega
    · have := ihr e' he'; simp only [List.length_cons]; omega

theorem weight_eq (T : HTree) : T.weight = (T.leaves.map Prod.fst).sum := by
  induction T with
  | leaf => simp [weight, leaves]
  | node l r ihl ihr => simp [weight, leaves, ihl, ihr]

/-- Kraft equality of a strictly binary tree (R175 item 4). -/
theorem kraft (T : HTree) : (T.paths.map fun e => (1 / 2 : ℚ) ^ e.2.length).sum = 1 := by
  induction T with
  | leaf => simp [paths]
  | node l r ihl ihr =>
    simp only [paths, List.map_append, List.map_map, List.sum_append, Function.comp_def,
      List.length_cons, pow_succ]
    rw [List.sum_map_mul_right, List.sum_map_mul_right, ihl, ihr]
    norm_num

/-- The weighted path length is the sum of the internal frequencies (R175 item 5). -/
theorem cost (T : HTree) :
    ((T.leaves.zip T.paths).map fun e => e.1.1 * e.2.2.length).sum = T.inner := by
  have hlen : ∀ T : HTree, T.leaves.length = T.paths.length := fun T => by
    simpa using (congrArg List.length T.paths_fst).symm
  have hw : ∀ (T : HTree) (b : Bool),
      ((T.leaves.zip (T.paths.map fun e => (e.1, b :: e.2))).map fun e => e.1.1 * e.2.2.length).sum =
        ((T.leaves.zip T.paths).map fun e => e.1.1 * e.2.2.length).sum + T.weight := by
    intro T b
    rw [weight_eq]
    have h := hlen T
    generalize T.leaves = xs at *
    generalize T.paths = ys at *
    induction xs generalizing ys with
    | nil => simp
    | cons x xs ih =>
      cases ys with
      | nil => simp at h
      | cons y ys =>
        have := ih ys (by simpa using h)
        simp only [List.map_cons, List.zip_cons_cons, List.sum_cons, List.length_cons,
          Nat.mul_add, Nat.mul_one] at this ⊢
        omega
  induction T with
  | leaf => simp [leaves, paths, inner]
  | node l r ihl ihr =>
    simp only [leaves, paths, inner]
    rw [List.zip_append (by simpa using hlen l), List.map_append, List.sum_append, hw, hw, ihl, ihr]
    omega

end HTree

/-- The listed codes written into CODE, in order. -/
def writeAll (code : Memory Code) (l : List (Nat × Code)) : Memory Code :=
  l.foldl (fun c e => Memory.write [] e.1 e.2 c) code

theorem writeAll_append (code : Memory Code) (l l' : List (Nat × Code)) :
    writeAll code (l ++ l') = writeAll (writeAll code l) l' := List.foldl_append

theorem read_writeAll_other (l : List (Nat × Code)) (code : Memory Code)
    (h : a ∉ l.map Prod.fst) : Memory.read [] a (writeAll code l) = Memory.read [] a code := by
  induction l generalizing code with
  | nil => rfl
  | cons e l ih =>
    simp only [List.map_cons, List.mem_cons, not_or] at h
    exact (ih _ h.2).trans (Memory.read_write_other (Ne.symm h.1))

theorem read_writeAll (l : List (Nat × Code)) (code : Memory Code)
    (hnd : (l.map Prod.fst).Nodup) (h : (a, p) ∈ l) :
    Memory.read [] a (writeAll code l) = p := by
  induction l generalizing code with
  | nil => simp at h
  | cons e l ih =>
    simp only [List.map_cons, List.nodup_cons] at hnd
    rcases List.mem_cons.1 h with rfl | h
    · exact (read_writeAll_other l _ hnd.1).trans Memory.read_write_same
    · exact ih _ hnd.2 h

theorem wf_writeAll (l : List (Nat × Code)) (code : Memory Code)
    (h : Memory.wf [] code = true) : Memory.wf [] (writeAll code l) = true := by
  induction l generalizing code with
  | nil => exact h
  | cons e l ih => exact ih _ (Memory.wf_write h)

/-- The walk from a node visits exactly the records of its tree and writes the paths of its leaves
(R172, R174). -/
theorem walk_rep (h : Rep node i T) : ∀ {k : Nat} {p : Code} {ws : List (Nat × Code)}
    {code : Memory Code}, T.size ≤ k →
    walk node k ((i, p) :: ws) code =
      walk node (k - T.size) ws (writeAll code (T.paths.map fun e => (e.1, p ++ e.2))) := by
  induction h with
  | leaf h =>
    intro k p ws code hk
    obtain ⟨k, rfl⟩ : ∃ j, k = j + 1 := ⟨k - 1, by simp only [HTree.size] at hk; omega⟩
    simp [walk, h, leafNode, HTree.size, HTree.paths, writeAll]
  | @node i x y l r h hx hy _ _ ihl ihr =>
    intro k p ws code hk
    simp only [HTree.size] at hk
    obtain ⟨k, rfl⟩ : ∃ j, k = j + 1 := ⟨k - 1, by omega⟩
    have hw : walk node (k + 1) ((i, p) :: ws) code =
        walk node k ((x, p ++ [false]) :: (y, p ++ [true]) :: ws) code := by simp [walk, h]
    rw [hw, ihl (by omega), ihr (by omega), ← writeAll_append]
    congr 1
    · simp only [HTree.size]; omega
    · simp [HTree.paths, Function.comp_def]

/-- GENCODE writes the codes of the tree (R171, R173). -/
theorem codeTable_spec {code : Memory Code} {n : Nat} (h : Rep node i T) (hn : T.size = n) :
    codeTable node i n code = some (writeAll code T.codes) := by
  unfold codeTable
  cases h with
  | leaf h => simp [h, leafNode, HTree.codes, writeAll]
  | @node _ x y l r h hx hy hl hr =>
    have h' : Rep node i (.node l r) := .node h hx hy hl hr
    rw [if_neg (by simp [h]), walk_rep h' (by omega)]
    simp [walk, HTree.codes, hn]

/-- A path belongs to a leaf of the tree exactly when following it ends there (R172). -/
theorem mem_paths_iff (h : Rep node i T) : (a, q) ∈ T.paths ↔
    ∃ j, follow node i q = some j ∧ (Memory.read Node.zero j node).leaf = true ∧
      (Memory.read Node.zero j node).sym = a := by
  induction h generalizing q with
  | @leaf i f b h =>
    cases q with
    | nil => simp [HTree.paths, follow, h, leafNode]; exact eq_comm
    | cons c q => simp [HTree.paths, follow, h, leafNode]
  | @node i x y l r h hx hy _ _ ihl ihr =>
    cases q with
    | nil => simp [HTree.paths, follow, h]
    | cons c q =>
      have hf : follow node i (c :: q) = follow node (if c then y else x) q := by simp [follow, h]
      rw [hf]
      cases c
      · rw [if_neg (by simp), ← ihl]; simp [HTree.paths]
      · rw [if_pos rfl, ← ihr]; simp [HTree.paths]

theorem follow_append (i : Nat) (p q : Code) :
    follow node i (p ++ q) = (follow node i p).bind fun j => follow node j q := by
  induction p generalizing i with
  | nil => rfl
  | cons c p ih =>
    simp only [List.cons_append, follow]
    split
    · rfl
    · exact ih _

/-- No code of the tree is a prefix of another (R175 item 3). -/
theorem paths_prefix_free (h : Rep node i T) (hq : (a, q) ∈ T.paths) (hq' : (a', q') ∈ T.paths)
    (hp : q <+: q') : a = a' ∧ q = q' := by
  obtain ⟨j, hj, hl, ha⟩ := (mem_paths_iff h).1 hq
  obtain ⟨j', hj', hl', ha'⟩ := (mem_paths_iff h).1 hq'
  obtain ⟨z, rfl⟩ := hp
  rw [follow_append, hj, Option.bind_some] at hj'
  cases z with
  | nil =>
    have : j = j' := by simpa [follow] using hj'
    exact ⟨by rw [← ha, ← ha', this], by simp⟩
  | cons c z => simp [follow, hl] at hj'

theorem HTree.codes_ne_nil {T : HTree} (h : (a, p) ∈ T.codes) : p ≠ [] := by
  cases T with
  | leaf f b =>
    simp only [HTree.codes, List.mem_singleton, Prod.mk.injEq] at h
    rw [h.2]; simp
  | node l r =>
    simp only [HTree.codes, HTree.paths, List.mem_append, List.mem_map] at h
    rcases h with ⟨e, _, h⟩ | ⟨e, _, h⟩ <;> (injection h with _ h; rw [← h]; simp)

theorem HTree.codes_eq_paths {T : HTree} (h : 2 ≤ T.leaves.length) : T.codes = T.paths := by
  cases T with
  | leaf => simp [HTree.leaves] at h
  | node => rfl

/-- `c` is the code table of the tree `T` over the table of `s` (R175 item 1). -/
structure CodesOf (s : State) (T : HTree) (c : Memory Code) : Prop where
  mem : ∀ a p, p ≠ [] → (Memory.read [] a c = p ↔ (a, p) ∈ T.codes)
  present : ∀ a, Memory.read [] a c ≠ [] ↔ a ∈ s.present
  perm : (T.codes.map Prod.fst).Perm s.present

/-- The codes of a tree whose leaves are the table's, written into an empty CODE. -/
theorem CodesOf.of_leaves {s : State} {T : HTree}
    (h : T.leaves.Perm (s.present.map fun a => (s.freqAt a, a))) :
    CodesOf s T (writeAll [] T.codes) := by
  have hperm : (T.codes.map Prod.fst).Perm s.present := by
    rw [HTree.codes_fst]
    have := h.map Prod.snd
    rw [List.map_map] at this
    simpa [Function.comp_def] using this
  have hnd : (T.codes.map Prod.fst).Nodup := hperm.nodup_iff.2 s.present_nodup
  have h1 : ∀ a p, (a, p) ∈ T.codes → Memory.read [] a (writeAll [] T.codes) = p :=
    fun a p h => read_writeAll _ _ hnd h
  have h2 : ∀ a, a ∉ s.present → Memory.read [] a (writeAll [] T.codes) = [] := fun a h =>
    read_writeAll_other _ _ fun h' => h (hperm.mem_iff.1 h')
  have h3 : ∀ a, a ∈ s.present → ∃ p, (a, p) ∈ T.codes := fun a h => by
    obtain ⟨e, he, rfl⟩ := List.mem_map.1 (hperm.mem_iff.2 h)
    exact ⟨e.2, he⟩
  refine ⟨fun a p hne => ⟨fun h => ?_, h1 a p⟩, fun a => ⟨fun h => ?_, fun h => ?_⟩, hperm⟩
  · by_cases ha : a ∈ s.present
    · obtain ⟨q, hq⟩ := h3 a ha
      rw [h1 a q hq] at h
      exact h ▸ hq
    · rw [h2 a ha] at h
      exact absurd h.symm hne
  · by_contra ha
    exact h (h2 a ha)
  · obtain ⟨q, hq⟩ := h3 a h
    rw [h1 a q hq]
    exact HTree.codes_ne_nil hq

/-- The walk keeps the canonical form of CODE and lists only symbols of leaf records, whatever the
records are. -/
theorem walk_wf {n : Nat} (hn : ∀ e ∈ node, e.2.sym < n) :
    ∀ k ws (code code' : Memory Code), Memory.wf [] code = true → (∀ e ∈ code, e.1 < n) →
      walk node k ws code = some code' → Memory.wf [] code' = true ∧ ∀ e ∈ code', e.1 < n := by
  intro k
  induction k with
  | zero =>
    intro ws code code' h1 h2 h
    cases ws with
    | nil => simp only [walk, Option.some.injEq] at h; subst h; exact ⟨h1, h2⟩
    | cons => simp [walk] at h
  | succ k ih =>
    intro ws code code' h1 h2 h
    rcases ws with _ | ⟨⟨i, p⟩, ws⟩
    · simp only [walk, Option.some.injEq] at h; subst h; exact ⟨h1, h2⟩
    simp only [walk] at h
    split at h
    · rename_i hl
      have hm : (i, Memory.read Node.zero i node) ∈ node :=
        Memory.mem_of_read_ne fun h => by rw [h] at hl; cases hl
      refine ih _ _ _ (Memory.wf_write h1) (fun e he => ?_) h
      rcases Memory.mem_write he with rfl | he
      · exact hn _ hm
      · exact h2 e he
    · exact ih _ _ _ h1 h2 h

/-- GENCODE keeps the canonical form of CODE, whatever the records are. -/
theorem codeTable_wf {n root k : Nat} {code code' : Memory Code} (hn : ∀ e ∈ node, e.2.sym < n)
    (h1 : Memory.wf [] code = true) (h2 : ∀ e ∈ code, e.1 < n)
    (h : codeTable node root k code = some code') :
    Memory.wf [] code' = true ∧ ∀ e ∈ code', e.1 < n := by
  unfold codeTable at h
  dsimp only at h
  split at h
  · rename_i hl
    have hm : (root, Memory.read Node.zero root node) ∈ node :=
      Memory.mem_of_read_ne fun h => by rw [h] at hl; cases hl
    injection h with h
    subst h
    refine ⟨Memory.wf_write h1, fun e he => ?_⟩
    rcases Memory.mem_write he with rfl | he
    · exact hn _ hm
    · exact h2 e he
  · exact walk_wf hn _ _ _ _ h1 h2 h

/-- Bit j of the packed number is the j-th listed bit (R176). -/
theorem packBits_testBit (l : List Bool) (j : Nat) : (packBits l).testBit j = l.getD j false := by
  induction l generalizing j with
  | nil => simp [packBits]
  | cons b l ih =>
    cases j with
    | zero => cases b <;> simp [packBits, Nat.testBit_zero]
    | succ j =>
      rw [Nat.testBit_succ]
      have : packBits (b :: l) / 2 = packBits l := by cases b <;> (simp [packBits]; try omega)
      rw [this, ih]
      simp

end Sys2Proof.Machine
end

