-- ==== Sys2Proof/Tests/Slice0.lean ====
section
/-!
SUPPORT. Tests of the model, expected values from spec/95_test_vectors.md and the examples of the rules
(named V-…, S…, P…, R… here), and for every statement with hypotheses a witness that meets them.
-/

namespace Sys2Proof.Tests

-- The many kernel evaluations below run one after the other, or their threads' stacks outgrow the memory limit.
set_option Elab.async false

open Sys2Proof.Machine

/-! ## WellFormed: an ill-formed term for each check, refused (R91, R97), and the last well-formed one -/

theorem test_wf_nop_operand : (Instr.nop 1).wellFormed Params.reference = false := by decide
theorem test_wf_clear_operand : (Instr.clear 1).wellFormed Params.reference = false := by decide
theorem test_wf_build_operand : (Instr.build 1).wellFormed Params.reference = false := by decide
theorem test_wf_gencode_operand : (Instr.gencode 0x800000).wellFormed Params.reference = false := by decide
theorem test_wf_rleend_operand : (Instr.rleend 1).wellFormed Params.reference = false := by decide
theorem test_wf_count_symbol : (Instr.count 256).wellFormed Params.reference = false := by decide
theorem test_wf_loadf_symbol : (Instr.loadf 256).wellFormed Params.reference = false := by decide
theorem test_wf_rdfreq_symbol : (Instr.rdfreq 256).wellFormed Params.reference = false := by decide
theorem test_wf_rdcode_symbol : (Instr.rdcode 256).wellFormed Params.reference = false := by decide
theorem test_wf_emit_symbol : (Instr.emit 256).wellFormed Params.reference = false := by decide
theorem test_wf_rleput_symbol : (Instr.rleput 256).wellFormed Params.reference = false := by decide
theorem test_wf_last_symbol : (Instr.count 255).wellFormed Params.reference = true := by decide
theorem test_wf_any_index : (Instr.rdnode 0xFFFFFF).wellFormed Params.reference = true := by decide

/-! ## Decode: words written out from R90 and R94 -/

theorem test_decode_nop : decode 0b00000000_000000000000000000000000#32 = .ok (.nop 0) := by rfl
theorem test_decode_clear : decode 0b00000001_000000000000000000000000#32 = .ok (.clear 0) := by rfl
theorem test_decode_count : decode 0b00010000_000000000000000001100001#32 = .ok (.count 0x61) := by rfl
theorem test_decode_loadf : decode 0b00010001_000000000000000001100001#32 = .ok (.loadf 0x61) := by rfl
theorem test_decode_rdfreq : decode 0b00010010_000000000000000001100010#32 = .ok (.rdfreq 0x62) := by rfl
theorem test_decode_build : decode 0b00100000_000000000000000000000000#32 = .ok (.build 0) := by rfl
theorem test_decode_rdnode : decode 0b00100001_000000000000000000000011#32 = .ok (.rdnode 3) := by rfl
theorem test_decode_gencode : decode 0b00110000_000000000000000000000000#32 = .ok (.gencode 0) := by rfl
theorem test_decode_rdcode : decode 0b00110010_000000000000000001100011#32 = .ok (.rdcode 0x63) := by rfl
theorem test_decode_emit : decode 0b01000000_000000000000000001100001#32 = .ok (.emit 0x61) := by rfl
theorem test_decode_rleput : decode 0b01010000_000000000000000001100010#32 = .ok (.rleput 0x62) := by rfl
theorem test_decode_rleend : decode 0b01010001_000000000000000000000000#32 = .ok (.rleend 0) := by rfl

/-- The operand field reaches from bit 0 to bit 23, and no further. -/
theorem test_decode_whole_operand :
    decode 0b01000000_100000000000000000000001#32 = .ok (.emit 0x800001) := by rfl

/-- R94: 0x31 is unassigned; R242: 0x99000000 is an illegal command. -/
theorem test_decode_reserved : decode 0x31000000#32 = .error .illegalCmd ∧
    decode 0x99000000#32 = .error .illegalCmd := by exact ⟨rfl, rfl⟩

theorem test_encode_count : encode (.count 0x61) = 0x10000061#32 := by decide

theorem test_decodeTableWord : decodeTableWord 32 0x21000003 = some (.rdnode 3) ∧
    decodeTableWord 32 0x31000000 = none ∧ decodeTableWord 24 5 = some (.nop 5) := by decide

/-! ## The states the tests start from -/

/-- The next state, where there is one. -/
def after : Host.Outcome State Fault Refusal → Option State
  | .next s => some s
  | .fault _ => none
  | .refused _ => none

theorem of_after {o : Host.Outcome State Fault Refusal} {t : State} (h : after o = some t) :
    o = .next t := by
  cases o with
  | next s => exact congrArg _ (Option.some.inj h)
  | fault => cases h
  | refused => cases h

/-- The fault, where there is one. -/
def stop : Host.Outcome State Fault Refusal → Option Fault
  | .next _ => none
  | .fault f => some f
  | .refused _ => none

theorem of_stop {o : Host.Outcome State Fault Refusal} {f : Fault} (h : stop o = some f) :
    o = .fault f := by
  cases o with
  | next => cases h
  | fault g => exact congrArg _ (Option.some.inj h)
  | refused => cases h

/-- One field of the next state. -/
def look {α : Type} (f : State → α) (o : Host.Outcome State Fault Refusal) : Option α :=
  (after o).map f

/-- After `COUNTS "aabbbcc"` (P1 row 8). -/
def counted : State :=
  { State.reset with freq := [(0x61, 2), (0x62, 3), (0x63, 2)], nsyms := 3, total := 7, phase := .hcount }

/-- After BUILD (V-T1). -/
def treed : State :=
  { counted with
    node := [(0, leafNode 2 0x61), (1, leafNode 3 0x62), (2, leafNode 2 0x63),
      (3, { freq := 4, leaf := false, sym := 0, left := 0, right := 2 }),
      (4, { freq := 7, leaf := false, sym := 0, left := 1, right := 3 })]
    nnodes := 5, root := 4, phase := .htree }

/-- After GENCODE (P1 row 10). -/
def coded : State :=
  { treed with
    code := [(0x61, [true, false]), (0x62, [false]), (0x63, [true, true])], phase := .hcode }

/-- After `COUNTS "aaaa"`, and then BUILD, and then GENCODE (P3). -/
def oneCounted : State := { State.reset with freq := [(0x61, 4)], nsyms := 1, total := 4, phase := .hcount }
def oneTreed : State :=
  { oneCounted with node := [(0, leafNode 4 0x61)], nnodes := 1, root := 0, phase := .htree }
def oneCoded : State := { oneTreed with code := [(0x61, [false])], phase := .hcode }

/-- An open run of three 'a' (P2 row 4), and the state after its RLEEND. -/
def running : State :=
  { State.reset with phase := .rlerun, runv := true, rlesym := 0x61, rlecnt := 3, total := 3 }
def ended : State := { running with phase := .rledone, runv := false, out := [0x61, 0x33] }

/-- After BUILD of an empty table (P4 row 2). -/
def failed : State :=
  { State.reset with phase := .fault, err := .emptyInput, errcmd := 0x20000000 }

/-- A table whose sum is CNTMAX (V-F6). -/
def full : State :=
  { State.reset with freq := [(0x61, 0xFFFFFFFF)], nsyms := 1, total := 0xFFFFFFFF, phase := .hcount }

/-- A state no run reaches: NSYMS counts an entry FREQ does not hold. -/
def hollow : State := { State.reset with nsyms := 1, phase := .hcount }

/-- A state no run reaches: the root is its own child. -/
def looped : State :=
  { treed with node := [(0, { freq := 1, leaf := false, sym := 0, left := 0, right := 0 })], root := 0 }

/-! ## One command each -/

/-- R220. -/
theorem test_nop : after (exec (.nop 0) coded) = some coded := by decide +kernel

/-- R220: the word 0x00000001 is a failure. -/
theorem test_nop_operand : look (fun t => (t.phase, t.err, t.errcmd)) (exec (.nop 1) coded) =
    some (.fault, .badOperand, 0x00000001#32) := by decide +kernel

/-- R221, R222. -/
theorem test_clear_in_fault : after (exec (.clear 0) failed) = some State.reset := by decide +kernel

/-- R95: in FAULT a CLEAR with an operand is ignored. -/
theorem test_clear_operand_in_fault : after (exec (.clear 1) failed) = some failed := by decide +kernel

/-- V-F1. -/
theorem test_count : look (fun t => (t.freq, t.nsyms, t.total, t.statusWord)) (exec (.count 0x61) State.reset) =
    some ([(0x61, 1)], 1, 1, 1) := by decide +kernel

/-- V-F6. -/
theorem test_count_overflow : look (fun t => (t.statusWord, t.errWord, t.errcmd, t.freq))
    (exec (.count 0x62) full) = some (0x17, 5, 0x10000062, [(0x61, 0xFFFFFFFF)]) := by decide +kernel

/-- V-F5: a count of 0 removes the entry. -/
theorem test_loadf_zero : look (fun t => (t.freq, t.nsyms, t.total, t.phase))
    (exec (.loadf 0x61) { oneCounted with arg := 0 }) = some ([], 0, 0, .hcount) := by decide +kernel

/-- V-F12: an ARG wider than CNTW = 16. -/
theorem test_loadf_wide : look (fun t => (t.errWord, t.errcmd))
    (exec (.loadf 0x61) { State.resetWith { symw := 8, cntw := 16 } with arg := 0x10000 }) =
    some (3, 0x11000061) := by decide +kernel

/-- R124. -/
theorem test_rdfreq : look (fun t => (t.res0, t.phase)) (exec (.rdfreq 0x62) counted) =
    some (3, .hcount) := by decide +kernel

/-- R154: the tree of the source's example, by BUILD. -/
theorem test_build : after (exec (.build 0) counted) = some treed := by decide +kernel

/-- V-T6: a leaf and an internal node of equal frequency; the leaf, being older, is popped first. -/
theorem test_build_tie : look (fun t => (t.nodeAt 4).left)
    (exec (.build 0) { State.reset with
      freq := [(0x61, 5), (0x62, 5), (0x63, 10)], nsyms := 3, total := 20, phase := .hcount }) =
    some 2 := by decide +kernel

/-- V-T1, node 3 and node 1. -/
theorem test_rdnode_inner : look (fun t => (t.res0, t.res1, t.res2)) (exec (.rdnode 3) treed) =
    some (4, 0, 2) := by decide +kernel
theorem test_rdnode_leaf : look (fun t => (t.res0, t.res1, t.res2)) (exec (.rdnode 1) treed) =
    some (3, 0x80000062, 0) := by decide +kernel

/-- R179. -/
theorem test_gencode : after (exec (.gencode 0) treed) = some coded := by decide +kernel

/-- R173, S3. -/
theorem test_gencode_one : after (exec (.gencode 0) oneTreed) = some oneCoded := by decide +kernel

/-- R176: `RDCODE 0x61, 0` gives length 2 and word 1. -/
theorem test_rdcode : look (fun t => (t.res1, t.res0)) (exec (.rdcode 0x61) coded) =
    some (2, 1) := by decide +kernel

/-- R176: word index 8 is out of range at SYMW = 8. -/
theorem test_rdcode_index : look (fun t => t.errWord) (exec (.rdcode 0x61) { coded with arg := 8 }) =
    some 7 := by decide +kernel

/-- R191: root-end bit first. -/
theorem test_emit : look (fun t => t.out) (exec (.emit 0x61) coded) = some [0x31, 0x30] := by decide +kernel

/-- R192, P7: a symbol that was never counted. -/
theorem test_emit_no_code : look (fun t => (t.errWord, t.out)) (exec (.emit 0x64) coded) =
    some (6, []) := by decide +kernel

/-- R202: an RLEPUT that differs flushes the run just ended. -/
theorem test_rleput_flush : look (fun t => (t.out, t.rlesym, t.rlecnt, t.total)) (exec (.rleput 0x62) running) =
    some ([0x61, 0x33], 0x62, 1, 4) := by decide +kernel

/-- P2 row 4: an RLEPUT of the current symbol appends nothing. -/
theorem test_rleput_same : look (fun t => (t.out, t.rlecnt, t.phase)) (exec (.rleput 0x61)
    { running with rlecnt := 2, total := 2 }) = some ([], 3, .rlerun) := by decide +kernel

/-- R203. -/
theorem test_rleend : after (exec (.rleend 0) running) = some ended := by decide +kernel

/-- R204, P4 row 6. -/
theorem test_rleend_empty : look (fun t => (t.statusWord, t.errWord, t.errcmd, t.out))
    (exec (.rleend 0) State.reset) = some (0x17, 1, 0x51000000, []) := by decide +kernel

/-- P5 (a run of 12) and R205 (the greatest count has 10 digits). -/
theorem test_dec : dec 12 = [0x31, 0x32] ∧
    dec 4294967295 = [0x34, 0x32, 0x39, 0x34, 0x39, 0x36, 0x37, 0x32, 0x39, 0x35] := by decide +kernel

/-! ## The window and the step -/

/-- V-B9 and V-B10: STATUS in the one-leaf tree and in an open run. -/
theorem test_status : oneTreed.statusWord = 0x22#32 ∧ running.statusWord = 0x44#32 := by decide

/-- R40: PARAM, here as V-F12 has it at CNTW = 16. -/
theorem test_param : State.reset.paramWord = 0x00002008#32 ∧
    (State.resetWith { symw := 8, cntw := 16 }).paramWord = 0x00001008#32 := by decide

/-- V-B7. -/
theorem test_write_arg : look (fun t => (t.arg, t.response))
    (step { State.reset with inputs := [.bus (.write 0x04 4 0xDEADBEEF)] }) =
    some (0xDEADBEEF, some .okayWrite) := by decide +kernel

/-- V-B3 to V-B6. -/
theorem test_refused_accesses :
    readResponse 0x00 4 State.reset = .error ∧ readResponse 0x3C 4 State.reset = .error ∧
    readResponse 0x40 4 State.reset = .error ∧ readResponse 0x05 4 State.reset = .error ∧
    readResponse 0x04 2 State.reset = .error ∧
    after (serve (.write 0x08 4 0xFFFFFFFF) counted) = some { counted with response := some .error } := by
  decide +kernel

/-- A word placed by withFetchWord is what the next step runs. -/
theorem test_step_runs_word : look (fun t => (t.freq, t.response)) (step (State.reset.withFetchWord 32 0x10000061)) =
    some ([(0x61, 1)], some .okayWrite) := by decide +kernel

/-! ## Canonical memory -/

theorem test_memory_write_sorted :
    Memory.write 0 5 1 (Memory.write 0 9 2 []) = [(5, 1), (9, 2)] := by decide
theorem test_memory_write_default_unlists :
    Memory.write 0 5 0 [(5, 1), (9, 2)] = [(9, 2)] := by decide
theorem test_memory_wf_refuses_default : Memory.wf 0 [(5, 0)] = false ∧
    Memory.wf 0 [(9, 1), (5, 1)] = false := by decide
theorem test_reset_memories_wf : Memory.wf 0 State.reset.freq = true ∧
    Memory.wf Node.zero State.reset.node = true ∧ Memory.wf [] State.reset.code = true := by decide

/-! ## States that meet the invariant -/

theorem memOk_of {s : State}
    (h : (decide s.par.Legal && Memory.wf 0 s.freq && Memory.wf Node.zero s.node && Memory.wf [] s.code &&
      s.freq.all (fun e => decide (e.1 < s.par.nsym)) && s.node.all (fun e => decide (e.1 < s.par.maxnodes)) &&
      s.code.all (fun e => decide (e.1 < s.par.nsym)) && s.node.all (fun e => decide (e.2.sym < s.par.nsym)) &&
      decide (s.rlesym < s.par.nsym) && s.out.all (fun c => decide (c < s.par.nsym))) = true) :
    s.MemOk := by
  simp only [Bool.and_eq_true, List.all_eq_true, decide_eq_true_eq] at h
  obtain ⟨⟨⟨⟨⟨⟨⟨⟨⟨h1, h2⟩, h3⟩, h4⟩, h5⟩, h6⟩, h7⟩, h8⟩, h9⟩, h10⟩ := h
  exact ⟨h1, h2, h3, h4, h5, h6, h7, h8, h9, h10⟩

theorem reset_mem : State.reset.MemOk := memOk_of (by decide +kernel)
theorem counted_mem : counted.MemOk := memOk_of (by decide +kernel)
theorem coded_mem : coded.MemOk := memOk_of (by decide +kernel)

theorem reset_call : State.reset.Call .idle where
  mem := reset_mem
  nsyms_eq := by decide +kernel
  total_le := by decide +kernel
  runv_iff := by decide
  huffman := fun _ => by decide +kernel
  rle := by decide
  treeless := fun _ _ => by decide
  codeless := fun _ => rfl
  tree := by decide
  table := by decide
  fresh := fun _ => by decide
  silent := fun _ => rfl

theorem reset_inv : State.reset.Inv := .inl ⟨by decide, reset_call, rfl, rfl⟩

theorem failed_inv : failed.Inv :=
  .inr ⟨rfl, by decide, .idle, by decide,
    { mem := memOk_of (by decide +kernel)
      nsyms_eq := by decide +kernel
      total_le := by decide +kernel
      runv_iff := by decide
      huffman := fun _ => by decide +kernel
      rle := by decide
      treeless := fun _ _ => by decide
      codeless := fun _ => rfl
      tree := by decide
      table := by decide
      fresh := fun _ => by decide
      silent := fun _ => rfl }⟩

theorem counted_inv : counted.Inv :=
  .inl ⟨by decide,
    { mem := counted_mem
      nsyms_eq := by decide +kernel
      total_le := by decide +kernel
      runv_iff := by decide
      huffman := fun _ => by decide +kernel
      rle := by decide
      treeless := fun _ _ => by decide
      codeless := fun _ => rfl
      tree := by decide
      table := by decide
      fresh := by decide
      silent := fun _ => rfl }, rfl, rfl⟩

theorem treed_inv : treed.Inv :=
  .inl ⟨by decide,
    { mem := memOk_of (by decide +kernel)
      nsyms_eq := by decide +kernel
      total_le := by decide +kernel
      runv_iff := by decide
      huffman := fun _ => by decide +kernel
      rle := by decide
      treeless := by decide
      codeless := fun _ => rfl
      tree := fun _ => by decide +kernel
      table := by decide
      fresh := by decide
      silent := fun _ => rfl }, rfl, rfl⟩

theorem coded_inv : coded.Inv :=
  .inl ⟨by decide,
    { mem := coded_mem
      nsyms_eq := by decide +kernel
      total_le := by decide +kernel
      runv_iff := by decide
      huffman := fun _ => by decide +kernel
      rle := by decide
      treeless := by decide
      codeless := by decide
      tree := fun _ => by decide +kernel
      table := fun _ => by decide +kernel
      fresh := by decide
      silent := by decide }, rfl, rfl⟩

theorem oneTreed_inv : oneTreed.Inv :=
  .inl ⟨by decide,
    { mem := memOk_of (by decide +kernel)
      nsyms_eq := by decide +kernel
      total_le := by decide +kernel
      runv_iff := by decide
      huffman := fun _ => by decide +kernel
      rle := by decide
      treeless := by decide
      codeless := fun _ => rfl
      tree := fun _ => by decide +kernel
      table := by decide
      fresh := by decide
      silent := fun _ => rfl }, rfl, rfl⟩

theorem oneCoded_inv : oneCoded.Inv :=
  .inl ⟨by decide,
    { mem := memOk_of (by decide +kernel)
      nsyms_eq := by decide +kernel
      total_le := by decide +kernel
      runv_iff := by decide
      huffman := fun _ => by decide +kernel
      rle := by decide
      treeless := by decide
      codeless := by decide
      tree := fun _ => by decide +kernel
      table := fun _ => by decide +kernel
      fresh := by decide
      silent := by decide }, rfl, rfl⟩

theorem running_inv : running.Inv :=
  .inl ⟨by decide,
    { mem := memOk_of (by decide +kernel)
      nsyms_eq := by decide +kernel
      total_le := by decide +kernel
      runv_iff := by decide
      huffman := by decide
      rle := fun _ => by decide
      treeless := fun _ _ => by decide
      codeless := fun _ => rfl
      tree := by decide
      table := by decide
      fresh := by decide
      silent := by decide }, rfl, rfl⟩

/-! ## Witnesses: for each statement with hypotheses, states and operands that meet them, clause by clause -/

/-- The state where the next transaction writes `w` to CMD. -/
def sent (w : Word) (s : State) : State := { s with inputs := [.bus (.write 0x00 4 w)] }

theorem witness_EncodeDecodeRoundTrip : decode 0x51FFFFFF#32 = .ok (.rleend 0xFFFFFF) := rfl

theorem witness_StepRunsDecodedCommand :
    (decode 0x10000061#32 = .ok (.count 0x61) ∧
      (sent 0x10000061 State.reset).inputs = .bus (.write 0x00 4 0x10000061) :: [] ∧
      ∃ t, exec (.count 0x61) { sent 0x10000061 State.reset with inputs := [] } = .next t) ∧
    (decode 0x20000000#32 = .ok (.build 0) ∧
      (sent 0x20000000 hollow).inputs = .bus (.write 0x00 4 0x20000000) :: [] ∧
      exec (.build 0) { sent 0x20000000 hollow with inputs := [] } = .fault .emptyQueue) :=
  ⟨⟨rfl, rfl, _, rfl⟩, rfl, rfl, of_stop (by decide +kernel)⟩

/-- The other fault, also in a state no run reaches. -/
theorem test_endless_walk : exec (.gencode 0) looped = .fault .endlessWalk := of_stop (by decide +kernel)

theorem witness_ReservedOpcodeFails : ∀ n ∈ ([0x02, 0x0F, 0x13, 0x31, 0x52, 0xFF] : List Nat),
    n ∈ ((List.range 256).filter fun n => decide (n ∉ ([0x00, 0x01, 0x10, 0x11, 0x12, 0x20, 0x21,
      0x30, 0x32, 0x40, 0x50, 0x51] : List Nat))) ∧ State.reset.phase ≠ .fault := by decide +kernel

/-- SYMW = 8, CNTW = 16, ARG one above CNTMAX. -/
def wideArg : State := { State.resetWith { symw := 8, cntw := 16 } with arg := 0x10000 }

theorem witness_IllegalOperandFails :
    State.reset.phase ≠ .fault ∧ (1 : Opd) ≠ 0 ∧ State.reset.par.nsym ≤ (256 : Opd).toNat ∧
    wideArg.phase ≠ .fault ∧ (255 : Opd).toNat < wideArg.par.nsym ∧ wideArg.phase = .idle ∧
    wideArg.par.cntw ≤ 16 ∧ wideArg.arg.getLsbD 16 = true := by decide +kernel

theorem witness_PhaseTable :
    ((Instr.rdnode 0).wellFormed State.reset.par = true ∧ State.reset.phase ≠ .fault) ∧
    ((Instr.build 1).wellFormed State.reset.par = false ∧ State.reset.phase ≠ .fault) ∧
    (failed.phase = .fault ∧ Instr.clear 1 ≠ .clear 0) ∧
    State.reset.Inv ∧ State.reset.phase = .idle :=
  ⟨by decide, by decide, by decide, reset_inv, rfl⟩

theorem witness_FaultIgnoresCommands : failed.phase = .fault ∧ 0x01000001#32 ≠ 0x01000000#32 ∧
    Reg.at 0x38 = some .param ∧ readReg failed .param = some 0x00002008#32 ∧
    Reg.at 0x04 = some .arg ∧ readReg failed .arg = some 0#32 := by decide

theorem witness_FirstApplicableCauseWins_shared :
    (∃ t, runWord 0x99000000 failed = .next t ∧ failed.phase = .fault ∧ 0x99000000#32 ≠ 0x01000000#32) ∧
    (∃ t, runWord 0x31000000 State.reset = .next t ∧ State.reset.phase ≠ .fault ∧
      decode 0x31000000 = .error .illegalCmd) ∧
    (∃ t, runWord 0x20000001 treed = .next t ∧ treed.phase ≠ .fault ∧
      decode 0x20000001 = .ok (.build 1) ∧ (Instr.build 1).wellFormed treed.par = false) ∧
    ∃ t, runWord 0x20000000 running = .next t ∧ running.phase ≠ .fault ∧
      decode 0x20000000 = .ok (.build 0) ∧ (Instr.build 0).wellFormed running.par = true ∧
      legalIn running.phase (.build 0) = false :=
  ⟨⟨_, rfl, by decide, by decide⟩, ⟨_, rfl, by decide, rfl⟩, ⟨_, rfl, by decide, rfl, by decide⟩,
    ⟨_, rfl, by decide, rfl, by decide, by decide⟩⟩

/-- A run that has reached CNTMAX. -/
def fullRun : State := { running with total := 0xFFFFFFFF, rlecnt := 0xFFFFFFFF }

theorem witness_FirstApplicableCauseWins_own :
    ∀ e ∈ ([(.count 0x62, full), (.loadf 0x61, wideArg), (.loadf 0x62, { full with arg := 1 }),
        (.build 0, State.reset), (.rdnode 5, treed), (.rdcode 0x61, { coded with arg := 8 }), (.emit 0x64, coded),
        (.rleput 0x61, fullRun), (.rleend 0, State.reset)] : List (Instr × State)),
      e.2.phase ≠ .fault ∧ e.1.wellFormed e.2.par = true ∧ legalIn e.2.phase e.1 = true ∧
      look State.phase (exec e.1 e.2) = some .fault := by decide +kernel

theorem witness_FailureChangesOnlyFailureRegisters :
    ∃ t, runWord 0x40000064 coded = .next t ∧ coded.phase ≠ .fault ∧ t.phase = .fault :=
  ⟨_, rfl, by decide, rfl⟩

theorem witness_PhaseAfterCommand : exec (.build 0) counted = .next treed ∧ counted.phase ≠ .fault ∧
    counted.Inv := ⟨of_after test_build, by decide, counted_inv⟩

theorem witness_ClearLeavesResetState : (1 : Opd) ≠ 0 ∧ coded.phase ≠ .fault ∧ failed.phase = .fault := by
  decide

theorem witness_NopChangesNothing : (0x800000 : Opd) ≠ 0 ∧ coded.phase ≠ .fault := by decide

theorem witness_CallsAreIsolated :
    let s₁ : State := { coded with inputs := [.bus (.write 0x00 4 0x01000000), .bus (.write 0x00 4 0x10000061)] }
    let s₂ : State := { failed with inputs := [.bus (.write 0x00 4 0x01000000), .bus (.write 0x00 4 0x10000061)] }
    s₁.par = s₂.par ∧ s₁ ≠ s₂ ∧
    s₁.inputs = .bus (.write 0x00 4 0x01000000) :: [.bus (.write 0x00 4 0x10000061)] ∧
    s₂.inputs = .bus (.write 0x00 4 0x01000000) :: [.bus (.write 0x00 4 0x10000061)] := by decide +kernel

theorem witness_ResetInputGivesResetState :
    ({ coded with inputs := [.reset] } : State).inputs = .reset :: [] ∧
    ({ coded with inputs := [.resetDuring (.write 0x00 4 0x40000061)] } : State).inputs =
      .resetDuring (.write 0x00 4 0x40000061) :: [] := ⟨rfl, rfl⟩

theorem witness_OnlyClearOrResetLeavesFault :
    ∀ x ∈ ([.bus (.write 0x00 4 0x01000000), .reset, .resetDuring (.read 0x08 4)] : List Input),
      ∃ t, step { failed with inputs := [x] } = .next t ∧
        ({ failed with inputs := [x] } : State).phase = .fault ∧ t.phase ≠ .fault := by
  intro x hx
  simp only [List.mem_cons, List.not_mem_nil, or_false] at hx
  rcases hx with rfl | rfl | rfl <;> exact ⟨_, rfl, rfl, by decide⟩

theorem witness_IdleBlockChangesNothing : State.reset.inputs = [] := rfl

/-- Each way an access can be one the window cannot serve, at the boundary. -/
theorem witness_ReadAnswersRegister : (2 : Nat) ≠ 4 ∧ 0x05 % 4 ≠ 0 ∧ (0x00 : Nat) = 0x00 ∧ 0x3C ≤ 0x3C := by
  decide

theorem witness_WriteReachesArgOrCommand : (∃ t, runWord 0x00000000 State.reset = .next t) ∧
    (8 : Nat) ≠ 4 ∧ (0x08 : Nat) ≠ 0x00 ∧ (0x08 : Nat) ≠ 0x04 := ⟨⟨_, rfl⟩, by decide⟩

theorem witness_BusErrorIsNoFailure :
    (∃ t, serve (.read 0x3C 4) counted = .next t ∧ t.response = some .error) ∧
    ∃ t, serve (.write 0x00 4 0x99000000) counted = .next t ∧ t.phase = .fault := ⟨⟨_, rfl, rfl⟩, _, rfl, rfl⟩

theorem witness_ParamIsConstant : Params.Legal { symw := 8, cntw := 8 } ∧ Params.Legal { symw := 23, cntw := 32 } ∧
    ∃ t, step (sent 0x01000000 coded) = .next t := ⟨by decide, by decide, _, rfl⟩

theorem witness_ArgIsTheHostsOperand : exec (.build 0) counted = .next treed ∧
    (∀ a, Instr.build 0 ≠ .loadf a) ∧ (∀ a, Instr.build 0 ≠ .rdcode a) ∧ Instr.build 0 ≠ .clear 0 :=
  ⟨of_after test_build, fun _ => nofun, fun _ => nofun, nofun⟩

theorem witness_ResultRegisterWriters :
    (∃ t, exec (.rdfreq 0x62) counted = .next t) ∧
    (∃ t, exec (.rdnode 5) treed = .next t ∧ t.phase = .fault) ∧ (0x1C : Nat) ∈ [0x14, 0x18, 0x1C] :=
  ⟨⟨_, rfl⟩, ⟨_, rfl, rfl⟩, by decide⟩

theorem witness_InternalMemoryWriters :
    exec (.build 0) counted = .next treed ∧ Instr.build 0 ≠ .clear 0 ∧
    (∀ a, Instr.build 0 ≠ .count a) ∧ (∀ a, Instr.build 0 ≠ .loadf a) ∧ Instr.build 0 ≠ .gencode 0 ∧
    (∀ a, Instr.build 0 ≠ .emit a) ∧ (∀ a, Instr.build 0 ≠ .rleput a) ∧ Instr.build 0 ≠ .rleend 0 ∧
    exec (.gencode 0) treed = .next coded ∧ Instr.gencode 0 ≠ .clear 0 ∧ Instr.gencode 0 ≠ .build 0 :=
  ⟨of_after test_build, nofun, fun _ => nofun, fun _ => nofun, nofun, fun _ => nofun, fun _ => nofun, nofun,
    of_after test_gencode, nofun, nofun⟩

theorem witness_CountAddsOneOccurrence :
    (counted.phase ≠ .fault ∧ (255 : Opd).toNat < counted.par.nsym ∧ counted.phase = .hcount ∧
      ({ counted with total := 0xFFFFFFFE } : State).total ≠ counted.par.cntmax) ∧
    (full.phase ≠ .fault ∧ (0 : Opd).toNat < full.par.nsym ∧ full.phase = .hcount ∧
      full.total = full.par.cntmax) ∧
    (treed.phase ≠ .fault ∧ treed.phase ≠ .idle ∧ treed.phase ≠ .hcount) ∧
    counted.par.nsym ≤ (256 : Opd).toNat := by decide +kernel

theorem witness_CountingOrderIsIrrelevant :
    State.reset.MemOk ∧
    ∃ t u, execAll [.count 0x61, .count 0x62] State.reset = .next t ∧
      execAll [.count 0x62, .count 0x61] State.reset = .next u ∧ t.phase = .hcount ∧ u.phase = .hcount :=
  ⟨reset_mem, _, _, rfl, rfl, rfl, rfl⟩

/-- The full table with an operand in ARG. -/
def fullArg (w : Word) : State := { full with arg := w }

theorem witness_LoadfSetsEntry :
    (wideArg.phase ≠ .fault ∧ (255 : Opd).toNat < wideArg.par.nsym ∧ wideArg.phase = .idle ∧
      2 ^ wideArg.par.cntw ≤ wideArg.arg.toNat) ∧
    ((fullArg 1).phase ≠ .fault ∧ (fullArg 1).phase = .hcount ∧
      (fullArg 1).arg.toNat < 2 ^ (fullArg 1).par.cntw ∧ (fullArg 1).freqAt 0x62 ≤ (fullArg 1).total ∧
      ((fullArg 1).freqAt 0x62 ≠ 0 → 1 ≤ (fullArg 1).nsyms) ∧
      (fullArg 1).par.cntmax < (fullArg 1).total - (fullArg 1).freqAt 0x62 + (fullArg 1).arg.toNat) ∧
    ((fullArg 0xFFFFFFFF).phase ≠ .fault ∧ (fullArg 0xFFFFFFFF).phase = .hcount ∧
      (fullArg 0xFFFFFFFF).arg.toNat < 2 ^ (fullArg 0xFFFFFFFF).par.cntw ∧
      (fullArg 0xFFFFFFFF).freqAt 0x61 ≤ (fullArg 0xFFFFFFFF).total ∧
      ((fullArg 0xFFFFFFFF).freqAt 0x61 ≠ 0 → 1 ≤ (fullArg 0xFFFFFFFF).nsyms) ∧
      (fullArg 0xFFFFFFFF).total - (fullArg 0xFFFFFFFF).freqAt 0x61 + (fullArg 0xFFFFFFFF).arg.toNat ≤
        (fullArg 0xFFFFFFFF).par.cntmax) ∧
    (coded.phase ≠ .fault ∧ coded.phase ≠ .idle ∧ coded.phase ≠ .hcount) ∧
    State.reset.par.nsym ≤ (256 : Opd).toNat := by decide +kernel

theorem witness_RdfreqReadsEntry : coded.phase ≠ .fault ∧ (255 : Opd).toNat < coded.par.nsym ∧
    coded.par.nsym ≤ (256 : Opd).toNat := by decide +kernel

theorem witness_CountsNeverWrap : counted.Inv ∧ counted.phase = .hcount ∧ 255 < counted.par.nsym ∧
    counted.total ≠ counted.par.cntmax := ⟨counted_inv, by decide +kernel⟩

theorem witness_BuildOfEmptyTableFails : State.reset.phase = .idle ∧ State.reset.nsyms = 0 := by decide

theorem witness_BuildEndsWithOneRoot : counted.phase = .hcount ∧ counted.nsyms ≠ 0 ∧ counted.present ≠ [] := by
  decide +kernel

theorem witness_LeavesAreInSymbolOrder : exec (.build 0) counted = .next treed ∧ treed.phase = .htree ∧
    2 < counted.present.length ∧ counted.present.length ≤ 3 ∧ 4 < treed.nnodes :=
  ⟨of_after test_build, by decide +kernel⟩

theorem witness_PopminTakesTheLeast : popmin treed.node [0, 1, 2] = some (0, [1, 2]) ∧
    popmin treed.node [1, 2, 3] = some (2, [1, 3]) ∧ popmin treed.node [] = none := by decide +kernel

theorem witness_MergesJoinTheTwoLeast : exec (.build 0) counted = .next treed ∧ treed.phase = .htree ∧
    counted.present.length ≤ 3 ∧ 3 < treed.nnodes ∧ 4 < treed.nnodes :=
  ⟨of_after test_build, by decide +kernel⟩

theorem witness_OneEntryGivesOneLeaf : oneCounted.phase = .hcount ∧ oneCounted.nsyms ≠ 0 ∧
    oneCounted.present = [0x61] := by decide +kernel

theorem witness_BuiltTreeIsATree : exec (.build 0) counted = .next treed ∧ treed.phase = .htree ∧
    counted.present.length ≤ 3 ∧ 3 + 1 < treed.nnodes ∧ 3 < treed.root ∧ 0 < treed.root :=
  ⟨of_after test_build, by decide +kernel⟩

theorem witness_RdnodeReadsRecord : treed.phase ≠ .fault ∧ treed.phase = .htree ∧
    (4 : Opd).toNat < treed.nnodes ∧ treed.nnodes ≤ (5 : Opd).toNat ∧
    counted.phase ≠ .fault ∧ counted.phase ≠ .htree ∧ counted.phase ≠ .hcode := by decide

theorem witness_GencodeWritesPaths : treed.Inv ∧ treed.phase = .htree ∧ 2 ≤ treed.nsyms ∧
    ([true, false] : Code) ≠ [] := ⟨treed_inv, by decide⟩

theorem witness_OnlySymbolGetsCodeZero : oneTreed.Inv ∧ oneTreed.phase = .htree ∧ oneTreed.nsyms = 1 :=
  ⟨oneTreed_inv, by decide⟩

theorem witness_CodesArePrefixFree : coded.Inv ∧ coded.phase = .hcode ∧ 0x61 ≠ 0x63 ∧
    coded.codeAt 0x61 ≠ [] := ⟨coded_inv, by decide⟩

theorem witness_KraftEqualityAndCost : (coded.Inv ∧ coded.phase = .hcode ∧ 2 ≤ coded.nsyms) ∧
    oneCoded.Inv ∧ oneCoded.phase = .hcode ∧ oneCoded.nsyms = 1 :=
  ⟨⟨coded_inv, by decide⟩, oneCoded_inv, by decide⟩

theorem witness_RdcodeReadsWord : coded.phase ≠ .fault ∧ (255 : Opd).toNat < coded.par.nsym ∧
    coded.phase = .hcode ∧ ({ coded with arg := 7 } : State).arg.toNat < coded.par.codewords ∧
    coded.par.codewords ≤ ({ coded with arg := 8 } : State).arg.toNat ∧
    treed.phase ≠ .fault ∧ treed.phase ≠ .hcode ∧ coded.par.nsym ≤ (256 : Opd).toNat := by decide +kernel

theorem witness_EmitAppendsCode : coded.phase ≠ .fault ∧ (0x61 : Opd).toNat < coded.par.nsym ∧
    coded.phase = .hcode ∧ coded.codeAt (0x61 : Opd).toNat ≠ [] ∧ (255 : Opd).toNat < coded.par.nsym ∧
    coded.codeAt (255 : Opd).toNat = [] ∧ treed.phase ≠ .fault ∧ treed.phase ≠ .hcode ∧
    coded.par.nsym ≤ (256 : Opd).toNat := by decide +kernel

theorem witness_HuffmanCallIsDecodable :
    failed.par.Legal ∧ ([0, 255, 0] : List Opd) ≠ [] ∧ (∀ a ∈ ([0, 255, 0] : List Opd), a.toNat < failed.par.nsym) ∧
    ([0, 255, 0] : List Opd).length ≤ failed.par.cntmax :=
  ⟨by decide, nofun, by intro a ha; fin_cases ha <;> decide, by decide⟩

theorem witness_RleputFeedsSymbol :
    (fullRun.phase ≠ .fault ∧ (0x61 : Opd).toNat < fullRun.par.nsym ∧ fullRun.phase = .rlerun ∧
      fullRun.total = fullRun.par.cntmax) ∧
    (State.reset.phase = .idle ∧ State.reset.total ≠ State.reset.par.cntmax ∧ State.reset.runv = false) ∧
    (running.phase = .rlerun ∧ running.total ≠ running.par.cntmax ∧ running.runv = true ∧
      (0x61 : Opd).toNat = running.rlesym ∧ (0 : Opd).toNat ≠ running.rlesym) ∧
    (ended.phase ≠ .fault ∧ ended.phase ≠ .idle ∧ ended.phase ≠ .rlerun) ∧
    State.reset.par.nsym ≤ (256 : Opd).toNat := by decide +kernel

theorem witness_RleendFlushesLastRun :
    (running.phase ≠ .fault ∧ running.phase = .rlerun ∧ running.runv = true) ∧
    (State.reset.phase ≠ .fault ∧ State.reset.phase = .idle ∧ State.reset.runv = false) ∧
    (ended.phase ≠ .fault ∧ ended.phase ≠ .idle ∧ ended.phase ≠ .rlerun) ∧ (1 : Opd) ≠ 0 := by decide

theorem witness_DecSpellsCount : 1 ≤ 1 ∧ 10 ^ 9 ≤ 4294967295 ∧ 4294967295 < 10 ^ (9 + 1) ∧
    4294967295 < 2 ^ 32 := by decide +kernel

theorem witness_RleCallSpellsRuns :
    let rs : List (Opd × Nat) := [(0x61, 3), (255, 4), (0x61, 1)]
    rs ≠ [] ∧ (∀ r ∈ rs, r.1.toNat < State.reset.par.nsym ∧ 1 ≤ r.2) ∧
    rs.IsChain (fun r r' => r.1 ≠ r'.1) ∧ (rs.map Prod.snd).sum ≤ State.reset.par.cntmax := by decide +kernel

theorem witness_RleOutputDeterminesInput :
    (∀ a ∈ ([0x2F, 0x3A] : List Opd), ¬ (0x30 ≤ a.toNat ∧ a.toNat ≤ 0x39)) ∧
    ∃ t, execAll ([.clear 0] ++ ([0x2F, 0x3A] : List Opd).map .rleput ++ [.rleend 0]) failed = .next t ∧
      t.phase = .rledone := ⟨by intro a ha; fin_cases ha <;> decide, _, rfl, rfl⟩

theorem witness_EmptyInputNeverGivesOutput :
    State.reset.Inv ∧ State.reset.phase ≠ .fault ∧
    (∃ t, runWord 0x20000000 State.reset = .next t ∧ t.err = .emptyInput) ∧
    ∃ t, runWord 0x51000000 State.reset = .next t ∧ t.err = .emptyInput :=
  ⟨reset_inv, by decide, ⟨_, rfl, rfl⟩, _, rfl, rfl⟩

theorem witness_ResetMeetsTheCallInvariant : Params.Legal { symw := 23, cntw := 8 } := by decide

theorem witness_StepKeepsTheCallInvariant :
    (failed.Inv ∧ ∃ t, step (sent 0x01000000 failed) = .next t) ∧
    running.Inv ∧ ∃ t, step running = .next t :=
  ⟨⟨failed_inv, _, rfl⟩, running_inv, _, rfl⟩

theorem witness_StepKeepsMemoriesCanonical : coded.MemOk ∧ step coded = .next coded := ⟨coded_mem, rfl⟩

theorem witness_EveryStepCompletes : treed.Inv ∧ coded.Inv := ⟨treed_inv, coded_inv⟩

theorem witness_EveryItemFitsItsWidth : coded.Inv ∧ coded.nnodes ≠ 0 ∧ counted.Inv ∧ counted.nnodes = 0 ∧
    failed.Inv ∧ coded.phase ≠ .fault := ⟨coded_inv, by decide, counted_inv, by decide, failed_inv, by decide⟩

end Sys2Proof.Tests
end

section
/-!
PROOFS. What every step keeps: the induction over a step, the ranges and canonical forms of the memories
(`State.MemOk`), and the invariant of the call (10_state.md R44).
-/

namespace Sys2Proof.Machine

variable {i : Instr} {s t : State} {p : Phase}

/-! ## One step, reduced to one command -/

/-- The state as the outside world leaves it between commands: other inputs in store, another response,
another ARG. -/
def State.withHost (inputs : List Input) (response : Option Response) (arg : Word) (s : State) : State :=
  { s with inputs := inputs, response := response, arg := arg }

/-- What the host's accesses, resets, reserved opcodes and commands keep, a step keeps. -/
theorem step_keeps {P : State → Prop}
    (host : ∀ s inputs response arg, P s → P (s.withHost inputs response arg))
    (reset : ∀ s, P s → P (State.resetWith s.par))
    (illegal : ∀ s w, s.phase ≠ .fault → P s → P (s.fail .illegalCmd w))
    (command : ∀ i s t, P s → exec i s = .next t → P t)
    (hs : P s) (h : step s = .next t) : P t := by
  rcases step_next h with ⟨-, rfl⟩ | ⟨x, rest, -, ⟨y, -, ⟨r, rfl⟩ | ⟨v, rfl⟩ | ⟨w, u, hu, rfl⟩⟩ | rfl⟩
  · exact hs
  · exact host s rest (some r) s.arg hs
  · exact host s rest (some .okayWrite) v hs
  · have hs' : P { s with inputs := rest } := host s rest s.response s.arg hs
    have hP : P u := by
      rcases runWord_next hu with ⟨i, -, hi⟩ | ⟨-, ⟨-, rfl⟩ | ⟨hf, rfl⟩⟩
      · exact command i _ u hs' hi
      · exact hs'
      · exact illegal _ w hf hs'
    exact host u u.inputs (some .okayWrite) u.arg hP
  · exact host (State.resetWith s.par) rest none 0 (reset s hs)

/-- RLEPUT that takes effect flushes the open run or not, and then opens or extends a run (R202). -/
theorem execRleput_feeds {opd : Opd} (h : execRleput opd s = .next t) :
    Unexecuted (.rleput opd) s t ∨
      ((s.phase = .idle ∨ s.phase = .rlerun) ∧ opd.toNat < s.par.nsym ∧ s.total ≠ s.par.cntmax ∧
        ∃ u cnt, (u = s ∨ s.runv = true ∧ u = s.append (runToken s.rlesym s.rlecnt)) ∧
          (cnt = 1 ∨ s.runv = true ∧ cnt = s.rlecnt + 1) ∧
          t = { u with rlesym := opd.toNat, rlecnt := cnt, runv := true, total := u.total + 1,
                       phase := .rlerun }) := by
  rcases execRleput_next h with h | ⟨hp, ha, ht, ⟨-, rfl⟩ | ⟨hr, he, rfl⟩ | ⟨hr, -, rfl⟩⟩
  · exact .inl h
  · exact .inr ⟨hp, ha, ht, s, 1, .inl rfl, .inl rfl, rfl⟩
  · exact .inr ⟨hp, ha, ht, s, s.rlecnt + 1, .inl rfl, .inr ⟨hr, rfl⟩, by rw [he, ← hr]⟩
  · exact .inr ⟨hp, ha, ht, _, 1, .inr ⟨hr, rfl⟩, .inl rfl, by rw [← hr]; rfl⟩

/-! ## The ranges of symbols and indices -/

theorem le_nsym_of_legal {q : Params} (h : q.Legal) : 256 ≤ q.nsym :=
  (by decide : 256 = 2 ^ 8) ▸ Nat.pow_le_pow_right (by decide) h.1.1

theorem State.present_length_le (s : State) : s.present.length ≤ s.par.nsym := by
  simpa [State.present] using List.length_filter_le (fun a => decide (s.freqAt a ≠ 0)) (List.range s.par.nsym)

/-- BUILD numbers at most MAXNODES records (R36). -/
theorem Built.nnodes_le (h : Built s t) : t.nnodes ≤ s.par.maxnodes := by
  have hlen := s.present_length_le
  have hcount := h.count
  unfold Params.maxnodes
  omega

/-- A record below NNODES is a leaf of a present symbol, or merges two records before it. -/
theorem Built.node_cases (h : Built s t) {k : Nat} (hk : k < t.nnodes) :
    (∃ a ∈ s.present, t.nodeAt k = leafNode (s.freqAt a) a) ∨
      ∃ x y, x < k ∧ y < k ∧ t.nodeAt k =
        { freq := (t.nodeAt x).freq + (t.nodeAt y).freq, leaf := false, sym := 0, left := x, right := y } := by
  by_cases hL : k < s.present.length
  · exact .inl ⟨_, List.getElem_mem hL, h.leaf k hL⟩
  · obtain ⟨x, y, -, hx, hy, -, -, hrec⟩ := h.merged k (by omega) hk
    exact .inr ⟨x, y, hx.1, hy.1, hrec⟩

/-- BUILD lists indices below MAXNODES and records that hold symbols, where NODE did before (R42). -/
theorem Built.node_range (h : Built s t) (hm : s.MemOk) (hw : Memory.wf Node.zero t.node = true)
    {e : Nat × Node} (he : e ∈ t.node) : e.1 < s.par.maxnodes ∧ e.2.sym < s.par.nsym := by
  obtain ⟨j, r⟩ := e
  obtain ⟨hread, hne⟩ := Memory.read_of_mem hw he
  dsimp only at hread hne ⊢
  subst hread
  by_cases hk : j < t.nnodes
  · refine ⟨hk.trans_le h.nnodes_le, ?_⟩
    rcases h.node_cases hk with ⟨a, ha, hrec⟩ | ⟨x, y, -, -, hrec⟩
    · rw [show Memory.read Node.zero j t.node = _ from hrec]
      exact (State.mem_present.1 ha).1
    · rw [show Memory.read Node.zero j t.node = _ from hrec]
      exact Nat.two_pow_pos _
  · have hold : Memory.read Node.zero j t.node = Memory.read Node.zero j s.node :=
      h.old j (by omega)
    rw [hold] at hne ⊢
    have hmem := Memory.mem_of_read_ne hne
    exact ⟨hm.node_in _ hmem, hm.node_sym _ hmem⟩

/-- A code's text is in range. -/
theorem State.MemOk.codeText_lt (h : s.MemOk) (c : Code) : ∀ x ∈ codeText c, x < s.par.nsym := by
  have hn := le_nsym_of_legal h.legal
  intro x hx
  obtain ⟨b, -, rfl⟩ := List.mem_map.1 hx
  have hb : charOfBit b ≤ 0x31 := by cases b <;> decide
  omega

/-- The open run's token is in range. -/
theorem State.MemOk.runToken_lt (h : s.MemOk) : ∀ x ∈ runToken s.rlesym s.rlecnt, x < s.par.nsym := by
  have hn := le_nsym_of_legal h.legal
  intro x hx
  rcases List.mem_cons.1 hx with rfl | hx
  · exact h.rlesym_in
  · have := (dec_spec s.rlecnt).2.1 x hx
    omega

/-! ## Every step keeps the memories canonical and in range (O55) -/

theorem State.MemOk.resetWith {q : Params} (h : q.Legal) : (State.resetWith q).MemOk where
  legal := h
  freq_wf := rfl
  node_wf := rfl
  code_wf := rfl
  freq_in := by simp [State.resetWith]
  node_in := by simp [State.resetWith]
  code_in := by simp [State.resetWith]
  node_sym := by simp [State.resetWith]
  rlesym_in := (Nat.two_pow_pos _ : 0 < 2 ^ q.symw)
  out_in := by simp [State.resetWith]

theorem State.MemOk.withHost {inputs : List Input} {response : Option Response} {arg : Word}
    (h : s.MemOk) : (s.withHost inputs response arg).MemOk := { h with }

theorem State.MemOk.fail {c : Cause} {w : Word} (h : s.MemOk) : (s.fail c w).MemOk := { h with }

theorem State.MemOk.clear (h : s.MemOk) : s.clear.MemOk :=
  { State.MemOk.resetWith h.legal with }

/-- A write of one entry of FREQ keeps the canonical form, whatever becomes of NSYMS, TOTAL and PHASE. -/
theorem State.MemOk.writeFreq {a v nsyms total : Nat} (h : s.MemOk) (ha : a < s.par.nsym) :
    { s with freq := Memory.write 0 a v s.freq, nsyms := nsyms, total := total, phase := p }.MemOk :=
  { h with
    freq_wf := Memory.wf_write h.freq_wf
    freq_in := fun e he => by
      rcases Memory.mem_write he with rfl | he
      · exact ha
      · exact h.freq_in e he }

theorem State.MemOk.append {cs : List Nat} (h : s.MemOk) (hcs : ∀ c ∈ cs, c < s.par.nsym) :
    (s.append cs).MemOk :=
  { h with
    out_in := fun c hc => by
      rcases List.mem_append.1 hc with hc | hc
      · exact h.out_in c hc
      · exact hcs c hc }

theorem State.MemOk.setRes {r0 r1 r2 : Word} (h : s.MemOk) :
    { s with res0 := r0, res1 := r1, res2 := r2 }.MemOk := { h with }

/-- A change of the open run keeps the memories. -/
theorem State.MemOk.setRun {a cnt total : Nat} {runv : Bool} (h : s.MemOk) (ha : a < s.par.nsym) :
    { s with rlesym := a, rlecnt := cnt, runv := runv, total := total, phase := p }.MemOk :=
  { h with rlesym_in := ha }

theorem Unexecuted.memOk (h : Unexecuted i s t) (hs : s.MemOk) : t.MemOk := by
  rcases h with ⟨-, rfl⟩ | ⟨-, c, -, rfl⟩
  · exact hs
  · exact hs.fail

theorem State.MemOk.exec (hs : s.MemOk) (h : exec i s = .next t) : t.MemOk := by
  cases i with
  | nop o =>
    rcases execNop_next h with h | ⟨-, -, rfl⟩
    · exact h.memOk hs
    · exact hs
  | clear o =>
    rcases execClear_next h with h | ⟨-, rfl⟩
    · exact h.memOk hs
    · exact hs.clear
  | count a =>
    rcases execCount_next h with h | ⟨-, ha, -, rfl⟩
    · exact h.memOk hs
    · exact hs.writeFreq ha
  | loadf a =>
    rcases execLoadf_next h with h | ⟨new, -, -, ha, -, rfl⟩
    · exact h.memOk hs
    · exact hs.writeFreq ha
  | rdfreq a =>
    rcases execRdfreq_next h with h | ⟨-, -, rfl⟩
    · exact h.memOk hs
    · exact hs.setRes
  | build o =>
    rcases execBuild_next h with h | ⟨r, rest, hpq, -, -, -, rfl⟩
    · exact h.memOk hs
    · have hw := wf_buildTree (p := s.par) (freq := s.freq) hs.node_wf
      have hb := Built.of_pq hpq
      exact { hs with
        node_wf := hw
        node_in := fun e he => (hb.node_range hs hw he).1
        node_sym := fun e he => (hb.node_range hs hw he).2 }
  | rdnode x =>
    rcases execRdnode_next h with h | ⟨-, -, rfl⟩
    · exact h.memOk hs
    · exact hs.setRes
  | gencode o =>
    rcases execGencode_next h with h | ⟨code, hc, -, -, rfl⟩
    · exact h.memOk hs
    · obtain ⟨hw, hin⟩ := codeTable_wf hs.node_sym hs.code_wf hs.code_in hc
      exact { hs with code_wf := hw, code_in := hin }
  | rdcode a =>
    rcases execRdcode_next h with h | ⟨-, -, -, rfl⟩
    · exact h.memOk hs
    · exact hs.setRes
  | emit a =>
    rcases execEmit_next h with h | ⟨-, -, -, rfl⟩
    · exact h.memOk hs
    · exact hs.append (hs.codeText_lt _)
  | rleput a =>
    rcases execRleput_feeds h with h | ⟨-, ha, -, u, cnt, rfl | ⟨-, rfl⟩, -, rfl⟩
    · exact h.memOk hs
    · exact hs.setRun ha
    · have happ := hs.append hs.runToken_lt
      exact happ.setRun ha
  | rleend o =>
    rcases execRleend_next h with h | ⟨-, -, -, rfl⟩
    · exact h.memOk hs
    · exact { hs.append hs.runToken_lt with }

/-- Settles O55: the host's accesses, a reset, a reserved opcode and every command keep it. -/
theorem stepKeepsMemoriesCanonical : Obligations.StepKeepsMemoriesCanonical := fun _ _ =>
  step_keeps (P := State.MemOk) (fun _ _ _ _ => State.MemOk.withHost)
    (fun _ h => State.MemOk.resetWith h.legal) (fun _ _ _ => State.MemOk.fail)
    (fun _ _ _ => State.MemOk.exec)

/-! ## The data of a call (R44) -/

theorem State.freqSum_eq_zero (h : s.freq = []) : s.freqSum = 0 := by
  simp [State.freqSum, show s.freqAt = fun _ => 0 from funext fun a => by rw [State.freqAt, h]; rfl]

theorem State.Call.resetWith {q : Params} (h : q.Legal) : (State.resetWith q).Call .idle where
  mem := State.MemOk.resetWith h
  nsyms_eq := by rw [State.present_eq_nil rfl]; rfl
  total_le := Nat.zero_le _
  runv_iff := by simp [State.resetWith]
  huffman := fun _ => ⟨(State.freqSum_eq_zero rfl).symm, rfl, rfl⟩
  rle := by simp
  treeless := fun _ _ => ⟨rfl, rfl, rfl⟩
  codeless := fun _ => rfl
  tree := by simp
  table := by simp
  fresh := fun _ => ⟨rfl, rfl, rfl, rfl, rfl⟩
  silent := fun _ => rfl

theorem State.Call.withHost {inputs : List Input} {response : Option Response} {arg : Word}
    (h : s.Call p) : (s.withHost inputs response arg).Call p := { h with mem := h.mem.withHost }

theorem State.Call.fail {c : Cause} {w : Word} (h : s.Call p) : (s.fail c w).Call p :=
  { h with mem := h.mem.fail }

theorem State.Call.clear (h : s.Call p) : s.clear.Call .idle :=
  { State.Call.resetWith h.mem.legal with mem := h.mem.clear }

theorem State.Call.runv_eq (h : s.Call p) (hp : p ≠ .rlerun) : s.runv = false :=
  Bool.eq_false_iff.2 fun hr => hp (h.runv_iff.1 hr)

/-- What items 2, 4 and 6 say before BUILD. -/
theorem State.Call.beforeBuild (h : s.Call p) (hp : p = .idle ∨ p = .hcount) :
    s.runv = false ∧ (s.total = s.freqSum ∧ s.rlesym = 0 ∧ s.rlecnt = 0) ∧
      (s.nnodes = 0 ∧ s.root = 0 ∧ s.node = []) ∧ s.code = [] ∧ s.out = [] := by
  have hne : p ≠ .htree ∧ p ≠ .hcode ∧ p ≠ .rlerun := by rcases hp with rfl | rfl <;> decide
  exact ⟨h.runv_eq hne.2.2, h.huffman (hp.imp_right .inl), h.treeless hne.1 hne.2.1, h.codeless hne.2.1,
    h.silent (hp.imp_right .inl)⟩

/-- A change of RES0 to RES2 keeps the data of a call, unless it is fresh and RES0 to RES2 become other
than 0. -/
theorem State.Call.setRes {r0 r1 r2 : Word} (h : s.Call p)
    (hr : p = .idle → r0 = 0 ∧ r1 = 0 ∧ r2 = 0) :
    { s with res0 := r0, res1 := r1, res2 := r2 }.Call p :=
  { h with
    mem := h.mem.setRes
    fresh := fun hp =>
      let ⟨hf, ht, _⟩ := h.fresh hp
      ⟨hf, ht, hr hp⟩ }

theorem State.Call.entryCount_le (h : s.Call p) {a : Nat} (ha : a < s.par.nsym) :
    entryCount (s.freqAt a) ≤ s.nsyms := by
  unfold entryCount
  split
  · exact Nat.zero_le _
  · rw [h.nsyms_eq]
    exact List.length_pos_of_mem (State.mem_present.2 ⟨ha, ‹_›⟩)

/-- One changed entry of FREQ, with NSYMS and TOTAL following it, leads to HCOUNT (R121, R123). -/
theorem State.Call.writeFreq {a v nsyms total : Nat} (h : s.Call p) (hp : p = .idle ∨ p = .hcount)
    (ha : a < s.par.nsym) (hle : total ≤ s.par.cntmax)
    (htotal : total + s.freqAt a = s.total + v)
    (hnsyms : nsyms + entryCount (s.freqAt a) = s.nsyms + entryCount v) :
    { s with freq := Memory.write 0 a v s.freq, nsyms := nsyms, total := total,
             phase := .hcount }.Call .hcount := by
  obtain ⟨hrun, ⟨hsum, hrle⟩, htree, hcode, hout⟩ := h.beforeBuild hp
  obtain ⟨hpres, hfsum⟩ := State.table_update (s := s) (a := a)
    (t := { s with freq := Memory.write 0 a v s.freq, nsyms := nsyms, total := total, phase := .hcount })
    ha rfl fun b hb => Memory.read_write_other (Ne.symm hb)
  have hnew : Memory.read 0 a (Memory.write 0 a v s.freq) = v := Memory.read_write_same
  have hns := h.nsyms_eq
  simp only [State.freqAt, hnew] at hpres hfsum htotal hnsyms
  exact
    { mem := h.mem.writeFreq ha
      nsyms_eq := by dsimp only; omega
      total_le := hle
      runv_iff := by simp [hrun]
      huffman := fun _ => ⟨by dsimp only; omega, hrle⟩
      rle := by simp
      treeless := fun _ _ => htree
      codeless := fun _ => hcode
      tree := by simp
      table := by simp
      fresh := by simp
      silent := fun _ => hout }

/-- BUILD, into a memory that lists no record, makes the tree of item 5. -/
theorem State.Call.built (h : s.Call p) (hp : p = .idle ∨ p = .hcount) (hns : s.nsyms ≠ 0)
    (hb : Built s t) (hm : t.MemOk) : t.Call .htree := by
  obtain ⟨hrun, hhuff, ⟨-, -, hnode⟩, hcode, hout⟩ := h.beforeBuild hp
  have heq := hb.eq
  rw [hnode] at heq
  rw [hb.upd] at hm ⊢
  exact
    { h with
      mem := hm
      runv_iff := by simp [hrun]
      huffman := fun _ => hhuff
      rle := by simp
      treeless := by simp
      codeless := fun _ => hcode
      tree := fun _ => ⟨Nat.pos_of_ne_zero hns, heq⟩
      table := by simp
      fresh := by simp
      silent := fun _ => hout }

/-- GENCODE, into a memory that lists no code, makes the table of item 6. -/
theorem State.Call.coded {code : Memory Code} (h : s.Call .htree)
    (hc : codeTable s.node s.root s.nnodes s.code = some code)
    (hm : { s with code := code, phase := .hcode }.MemOk) :
    { s with code := code, phase := .hcode }.Call .hcode :=
  { h with
    mem := hm
    runv_iff := by simp [h.runv_eq (by decide)]
    huffman := fun _ => h.huffman (by simp)
    rle := by simp
    treeless := by simp
    codeless := by simp
    tree := fun _ => h.tree (.inl rfl)
    table := fun _ => by rw [h.codeless (by decide)] at hc; exact hc
    fresh := by simp
    silent := by simp }

/-- Appending to OUT keeps the data of a call that has left the silent phases. -/
theorem State.Call.append {cs : List Nat} (h : s.Call p)
    (hp : ¬(p = .idle ∨ p = .hcount ∨ p = .htree)) (hcs : ∀ c ∈ cs, c < s.par.nsym) :
    (s.append cs).Call p :=
  { h with mem := h.mem.append hcs, silent := fun h' => absurd h' hp }

/-- One more symbol fed to the packer, as the open run's next or as the first of a new run (R202). -/
theorem State.Call.feed {a cnt : Nat} (h : s.Call p) (hp : p = .idle ∨ p = .rlerun)
    (ha : a < s.par.nsym) (htotal : s.total ≠ s.par.cntmax) (hcnt : 1 ≤ cnt ∧ cnt ≤ s.total + 1) :
    { s with rlesym := a, rlecnt := cnt, runv := true, total := s.total + 1,
             phase := .rlerun }.Call .rlerun := by
  have hfreq : s.freq = [] := by
    rcases hp with rfl | rfl
    · exact (h.fresh rfl).1
    · exact (h.rle (.inl rfl)).1
  have hne : p ≠ .htree ∧ p ≠ .hcode := by rcases hp with rfl | rfl <;> decide
  have hle := h.total_le
  exact
    { h with
      mem := h.mem.setRun ha
      total_le := by dsimp only; omega
      runv_iff := by simp
      huffman := by simp
      rle := fun _ => ⟨hfreq, hcnt⟩
      treeless := fun _ _ => h.treeless hne.1 hne.2
      codeless := fun _ => h.codeless hne.2
      tree := by simp
      table := by simp
      fresh := by simp
      silent := by simp }

/-- The end of the last run (R203). -/
theorem State.Call.endRun (h : s.Call .rlerun) : { s with runv := false, phase := .rledone }.Call .rledone :=
  { h with
    mem := { h.mem with }
    runv_iff := by simp
    huffman := by simp
    rle := fun _ => h.rle (.inl rfl)
    treeless := fun _ _ => h.treeless (by decide) (by decide)
    codeless := fun _ => h.codeless (by decide)
    tree := by simp
    table := by simp
    fresh := by simp
    silent := by simp }

/-! ## Every step keeps the invariant (O54) -/

/-- Outside FAULT a command that takes effect is CLEAR, or leads from the data of its phase to the data of
the next and records no failure. -/
theorem State.Call.exec (hs : s.Call s.phase) (hf : s.phase ≠ .fault) (h : exec i s = .next t) :
    Unexecuted i s t ∨ (i = .clear 0 ∧ t = s.clear) ∨
      (t.phase ≠ .fault ∧ t.Call t.phase ∧ t.err = s.err ∧ t.errcmd = s.errcmd) := by
  have hm : t.MemOk := hs.mem.exec h
  cases i with
  | nop o =>
    refine (execNop_next h).imp_right fun ⟨_, _, he⟩ => .inr ?_
    rw [he]
    exact ⟨hf, hs, rfl, rfl⟩
  | clear o =>
    exact (execClear_next h).imp_right fun ⟨ho, he⟩ => .inl ⟨by rw [ho], he⟩
  | count a =>
    rcases execCount_next h with h | ⟨hp, ha, htot, rfl⟩
    · exact .inl h
    · have hle := hs.total_le
      refine .inr (.inr ⟨by simp, hs.writeFreq hp ha (by omega) (by omega) ?_, rfl, rfl⟩)
      by_cases h0 : s.freqAt a.toNat = 0 <;> simp [entryCount, h0]
  | loadf a =>
    rcases execLoadf_next h with h | ⟨new, -, hp, ha, hle, rfl⟩
    · exact .inl h
    · have hold : s.freqAt a.toNat ≤ s.total := by
        rw [(hs.beforeBuild hp).2.1.1]
        exact State.freqAt_le_freqSum ha
      have hcnt := hs.entryCount_le ha
      exact .inr (.inr ⟨by simp, hs.writeFreq hp ha hle (by omega) (by omega), rfl, rfl⟩)
  | rdfreq a =>
    rcases execRdfreq_next h with h | ⟨-, ha, rfl⟩
    · exact .inl h
    · refine .inr (.inr ⟨hf, hs.setRes fun hp => ?_, rfl, rfl⟩)
      obtain ⟨hfreq, -, -, h1, h2⟩ := hs.fresh hp
      exact ⟨by rw [State.freqAt, hfreq]; rfl, h1, h2⟩
  | build o =>
    rcases execBuild_next h with h | ⟨r, rest, hpq, -, hp, hns, rfl⟩
    · exact .inl h
    · exact .inr (.inr ⟨by simp, hs.built hp hns (Built.of_pq hpq) hm, rfl, rfl⟩)
  | rdnode x =>
    rcases execRdnode_next h with h | ⟨hp, -, rfl⟩
    · exact .inl h
    · exact .inr (.inr ⟨hf, hs.setRes fun hi => by simp [hi] at hp, rfl, rfl⟩)
  | gencode o =>
    rcases execGencode_next h with h | ⟨code, hc, -, hp, rfl⟩
    · exact .inl h
    · rw [hp] at hs
      exact .inr (.inr ⟨by simp, hs.coded hc hm, rfl, rfl⟩)
  | rdcode a =>
    rcases execRdcode_next h with h | ⟨hp, -, -, rfl⟩
    · exact .inl h
    · exact .inr (.inr ⟨hf, hs.setRes fun hi => by simp [hi] at hp, rfl, rfl⟩)
  | emit a =>
    rcases execEmit_next h with h | ⟨hp, -, -, rfl⟩
    · exact .inl h
    · exact .inr (.inr ⟨hf, hs.append (by simp [hp]) (hs.mem.codeText_lt _), rfl, rfl⟩)
  | rleput a =>
    rcases execRleput_feeds h with h | ⟨hp, ha, htot, u, cnt, hu, hcnt, rfl⟩
    · exact .inl h
    · have hrun : s.runv = true → 1 ≤ s.rlecnt ∧ s.rlecnt ≤ s.total := fun hr =>
        (hs.rle (.inl (hs.runv_iff.1 hr))).2
      have hcnt : 1 ≤ cnt ∧ cnt ≤ s.total + 1 := by
        rcases hcnt with rfl | ⟨hr, rfl⟩
        · omega
        · have := hrun hr
          omega
      rcases hu with rfl | ⟨hr, rfl⟩
      · exact .inr (.inr ⟨by simp, hs.feed hp ha htot hcnt, rfl, rfl⟩)
      · have happ := hs.append (by simp [hs.runv_iff.1 hr]) hs.mem.runToken_lt
        exact .inr (.inr ⟨by simp, happ.feed hp ha htot hcnt, rfl, rfl⟩)
  | rleend o =>
    rcases execRleend_next h with h | ⟨-, -, hr, rfl⟩
    · exact .inl h
    · have hp := hs.runv_iff.1 hr
      have happ := hs.append (by simp [hp]) hs.mem.runToken_lt
      rw [hp] at happ
      exact .inr (.inr ⟨by simp, happ.endRun, rfl, rfl⟩)

theorem State.Inv.legal (h : s.Inv) : s.par.Legal := by
  rcases h with ⟨-, hc, -⟩ | ⟨-, -, p, -, hc⟩ <;> exact hc.mem.legal

theorem State.Inv.resetWith {q : Params} (h : q.Legal) : (State.resetWith q).Inv :=
  .inl ⟨by simp [State.resetWith], State.Call.resetWith h, rfl, rfl⟩

theorem State.Inv.withHost {inputs : List Input} {response : Option Response} {arg : Word}
    (h : s.Inv) : (s.withHost inputs response arg).Inv := by
  rcases h with ⟨hf, hc, he, hw⟩ | ⟨hf, he, p, hp, hc⟩
  · exact .inl ⟨hf, hc.withHost, he, hw⟩
  · exact .inr ⟨hf, he, p, hp, hc.withHost⟩

theorem State.Inv.clear (h : s.Inv) : s.clear.Inv :=
  (State.Inv.resetWith h.legal).withHost (inputs := s.inputs) (response := s.response) (arg := 0)

/-- A failure keeps the data of the phase it found. -/
theorem State.Inv.fail {c : Cause} {w : Word} (h : s.Inv) (hf : s.phase ≠ .fault) (hc : c ≠ .none) :
    (s.fail c w).Inv := by
  rcases h with ⟨-, hcall, -⟩ | ⟨hf', -⟩
  · exact .inr ⟨rfl, hc, s.phase, hf, hcall.fail⟩
  · exact absurd hf' hf

theorem State.Inv.unexecuted (hs : s.Inv) (h : Unexecuted i s t) : t.Inv := by
  rcases h with ⟨-, rfl⟩ | ⟨hf, c, hc, rfl⟩
  · exact hs
  · exact hs.fail hf hc

theorem State.Inv.exec (hs : s.Inv) (h : exec i s = .next t) : t.Inv := by
  have hs' := hs
  rcases hs with ⟨hf, hcall, he, hw⟩ | ⟨hf, -⟩
  · rcases hcall.exec hf h with hun | ⟨-, rfl⟩ | ⟨hf', hcall', he', hw'⟩
    · exact hs'.unexecuted hun
    · exact hs'.clear
    · exact .inl ⟨hf', hcall', he'.trans he, hw'.trans hw⟩
  · by_cases hi : i = .clear 0
    · subst hi
      rw [exec_clear] at h
      injection h with h
      exact h ▸ hs'.clear
    · rw [exec_ignored hf hi] at h
      injection h with h
      exact h ▸ hs'

/-- Settles O54: the host's accesses, a reset, a reserved opcode and every command keep the invariant. -/
theorem stepKeepsTheCallInvariant : Obligations.StepKeepsTheCallInvariant := fun _ _ =>
  step_keeps (P := State.Inv) (fun _ _ _ _ => State.Inv.withHost)
    (fun _ h => State.Inv.resetWith h.legal) (fun _ _ hf h => h.fail hf (by decide))
    (fun _ _ _ => State.Inv.exec)

/-- Settles O53: every item of a reset state is 0 or empty. -/
theorem resetMeetsTheCallInvariant : Obligations.ResetMeetsTheCallInvariant :=
  ⟨State.Inv.resetWith (q := Params.reference) (by decide), fun _ => State.Inv.resetWith⟩

end Sys2Proof.Machine
end

section
/-!
PROOFS. What the registers hold: which commands touch ARG, RES0 to RES2 and the parameters, and the words
of STATUS, ERR and PARAM (10_state.md R22 to R40, R49).
-/

namespace Sys2Proof.Machine

variable {i : Instr} {s t : State} {v : Word}

/-! ## What a command leaves of the registers -/

/-- The parameters and ARG are as before, and RES0 to RES2 too, but for the commands that read back into
them (R22, R23). -/
structure KeepsRegisters (i : Instr) (s t : State) : Prop where
  par : t.par = s.par
  arg : t.arg = s.arg
  res0 : t.res0 = s.res0 ∨ (∃ a, i = .rdfreq a) ∨ (∃ a, i = .rdnode a) ∨ ∃ a, i = .rdcode a
  res1 : t.res1 = s.res1 ∨ (∃ a, i = .rdnode a) ∨ ∃ a, i = .rdcode a
  res2 : t.res2 = s.res2 ∨ ∃ a, i = .rdnode a

/-- A command that was ignored or failed left every register of the kind as it was (R236). -/
theorem Unexecuted.registers (h : Unexecuted i s t) :
    t.par = s.par ∧ t.arg = s.arg ∧ t.res0 = s.res0 ∧ t.res1 = s.res1 ∧ t.res2 = s.res2 := by
  rcases h with ⟨-, rfl⟩ | ⟨-, c, -, rfl⟩ <;> exact ⟨rfl, rfl, rfl, rfl, rfl⟩

theorem Unexecuted.keepsRegisters (h : Unexecuted i s t) : KeepsRegisters i s t :=
  let ⟨hp, ha, h0, h1, h2⟩ := h.registers
  ⟨hp, ha, .inl h0, .inl h1, .inl h2⟩

/-- CLEAR aside, a command keeps the registers it does not read back into. -/
theorem exec_registers (h : exec i s = .next t) : (i = .clear 0 ∧ t = s.clear) ∨ KeepsRegisters i s t := by
  cases i with
  | nop o =>
    rcases execNop_next h with h | ⟨-, -, rfl⟩
    · exact .inr h.keepsRegisters
    · exact .inr ⟨rfl, rfl, .inl rfl, .inl rfl, .inl rfl⟩
  | clear o =>
    rcases execClear_next h with h | ⟨rfl, ht⟩
    · exact .inr h.keepsRegisters
    · exact .inl ⟨rfl, ht⟩
  | count a =>
    rcases execCount_next h with h | ⟨-, -, -, rfl⟩
    · exact .inr h.keepsRegisters
    · exact .inr ⟨rfl, rfl, .inl rfl, .inl rfl, .inl rfl⟩
  | loadf a =>
    rcases execLoadf_next h with h | ⟨new, -, -, -, -, rfl⟩
    · exact .inr h.keepsRegisters
    · exact .inr ⟨rfl, rfl, .inl rfl, .inl rfl, .inl rfl⟩
  | rdfreq a =>
    rcases execRdfreq_next h with h | ⟨-, -, rfl⟩
    · exact .inr h.keepsRegisters
    · exact .inr ⟨rfl, rfl, .inr (.inl ⟨a, rfl⟩), .inl rfl, .inl rfl⟩
  | build o =>
    rcases execBuild_next h with h | ⟨r, rest, -, -, -, -, rfl⟩
    · exact .inr h.keepsRegisters
    · exact .inr ⟨rfl, rfl, .inl rfl, .inl rfl, .inl rfl⟩
  | rdnode x =>
    rcases execRdnode_next h with h | ⟨-, -, rfl⟩
    · exact .inr h.keepsRegisters
    · exact .inr ⟨rfl, rfl, .inr (.inr (.inl ⟨x, rfl⟩)), .inr (.inl ⟨x, rfl⟩), .inr ⟨x, rfl⟩⟩
  | gencode o =>
    rcases execGencode_next h with h | ⟨code, -, -, -, rfl⟩
    · exact .inr h.keepsRegisters
    · exact .inr ⟨rfl, rfl, .inl rfl, .inl rfl, .inl rfl⟩
  | rdcode a =>
    rcases execRdcode_next h with h | ⟨-, -, -, rfl⟩
    · exact .inr h.keepsRegisters
    · exact .inr ⟨rfl, rfl, .inr (.inr (.inr ⟨a, rfl⟩)), .inr (.inr ⟨a, rfl⟩), .inl rfl⟩
  | emit a =>
    rcases execEmit_next h with h | ⟨-, -, -, rfl⟩
    · exact .inr h.keepsRegisters
    · exact .inr ⟨rfl, rfl, .inl rfl, .inl rfl, .inl rfl⟩
  | rleput a =>
    rcases execRleput_feeds h with h | ⟨-, -, -, u, cnt, rfl | ⟨-, rfl⟩, -, rfl⟩
    · exact .inr h.keepsRegisters
    · exact .inr ⟨rfl, rfl, .inl rfl, .inl rfl, .inl rfl⟩
    · exact .inr ⟨rfl, rfl, .inl rfl, .inl rfl, .inl rfl⟩
  | rleend o =>
    rcases execRleend_next h with h | ⟨-, -, -, rfl⟩
    · exact .inr h.keepsRegisters
    · exact .inr ⟨rfl, rfl, .inl rfl, .inl rfl, .inl rfl⟩

/-- A command that ends in FAULT was ignored or failed. -/
theorem unexecuted_of_fault (h : exec i s = .next t) (ht : t.phase = .fault) : Unexecuted i s t := by
  by_cases hf : s.phase = .fault
  · by_cases hi : i = .clear 0
    · rw [hi, exec_clear] at h
      injection h with h
      rw [← h] at ht
      cases ht
    · rw [exec_ignored hf hi] at h
      injection h with h
      exact .inl ⟨hf, h.symm⟩
  · cases hw : i.wellFormed s.par with
    | false => exact raiseFail_next hf (by decide) ((exec_illegalOperand hf hw).symm.trans h)
    | true =>
      cases hl : legalIn s.phase i with
      | false => exact raiseFail_next hf (by decide) ((exec_illegalPhase hf hw hl).symm.trans h)
      | true =>
        obtain ⟨hc, ht⟩ := exec_ownCause hf hw hl h ht
        exact .inr ⟨hf, _, hc, ht⟩

theorem exec_par (h : exec i s = .next t) : t.par = s.par := by
  rcases exec_registers h with ⟨-, rfl⟩ | h
  · rfl
  · exact h.par

/-- No step changes the parameters (R6). -/
theorem step_par (h : step s = .next t) : t.par = s.par :=
  step_keeps (P := fun u => u.par = s.par) (fun _ _ _ _ hu => hu) (fun _ hu => hu) (fun _ _ _ hu => hu)
    (fun _ _ _ hu h => (exec_par h).trans hu) rfl h

/-! ## Commands that do not look at ARG -/

/-- The outcome with ARG replaced in its next state. -/
def setArg (v : Word) : Host.Outcome State Fault Refusal → Host.Outcome State Fault Refusal
  | .next t => .next { t with arg := v }
  | .fault f => .fault f
  | .refused r => .refused r

theorem setArg_ite {c : Prop} [Decidable c] {x y x' y' : Host.Outcome State Fault Refusal}
    (hx : x' = setArg v x) (hy : y' = setArg v y) :
    (if c then x' else y') = setArg v (if c then x else y) := by
  rw [hx, hy, apply_ite (setArg v)]

/-- The tests every command passes first do not look at ARG. -/
theorem command_setArg {body body' : Host.Outcome State Fault Refusal} (h : body' = setArg v body) :
    command i { s with arg := v } body' = setArg v (command i s body) :=
  setArg_ite rfl (setArg_ite rfl (setArg_ite rfl h))

/-- CLEAR with an illegal operand is ignored or fails, whatever ARG holds. -/
theorem execClear_setArg {o : Opd} (ho : o ≠ 0) :
    exec (.clear o) { s with arg := v } = setArg v (exec (.clear o) s) := by
  have hne : Instr.clear o ≠ .clear 0 := fun h => ho (by injection h)
  have hw : (Instr.clear o).wellFormed s.par = false := by simpa [Instr.wellFormed] using ho
  by_cases hf : s.phase = .fault
  · rw [exec_ignored hf hne, exec_ignored (s := { s with arg := v }) hf hne]
    rfl
  · rw [exec_illegalOperand hf hw, exec_illegalOperand (s := { s with arg := v }) hf hw]
    rfl

/-- Every command but LOADF and RDCODE, which read ARG, and CLEAR, which writes it, does the same
whatever ARG holds (R22). -/
theorem exec_setArg (hl : ∀ a, i ≠ .loadf a) (hr : ∀ a, i ≠ .rdcode a) (hc : i ≠ .clear 0) :
    exec i { s with arg := v } = setArg v (exec i s) := by
  cases i with
  | nop o => exact command_setArg rfl
  | clear o => exact execClear_setArg fun h => hc (by rw [h])
  | count a => exact command_setArg (setArg_ite rfl rfl)
  | loadf a => exact absurd rfl (hl a)
  | rdfreq a => exact command_setArg rfl
  | build o => exact command_setArg (setArg_ite rfl (by dsimp only; split <;> rfl))
  | rdnode x => exact command_setArg (setArg_ite rfl rfl)
  | gencode o => exact command_setArg (by dsimp only; split <;> rfl)
  | rdcode a => exact absurd rfl (hr a)
  | emit a => exact command_setArg (setArg_ite rfl rfl)
  | rleput a => exact command_setArg (setArg_ite rfl (setArg_ite rfl (setArg_ite rfl rfl)))
  | rleend o => exact command_setArg (setArg_ite rfl rfl)

/-- Settles O24: CLEAR is the one command that writes ARG, and the outcome of one that does not read it
has ARG replaced and nothing else. -/
theorem argIsTheHostsOperand : Obligations.ArgIsTheHostsOperand := by
  refine ⟨fun i s t h => ?_, fun i s t v h hl hr hc => ?_, fun s v => ?_, fun s v => ⟨rfl, rfl⟩, rfl⟩
  · rcases exec_registers h with ⟨hi, rfl⟩ | h
    · exact .inr ⟨hi, rfl⟩
    · exact .inl h.arg
  · rw [exec_setArg hl hr hc, h]
    rfl
  · rw [exec_clear, exec_clear]
    rfl

/-- Settles O25: from what each command keeps of RES0 to RES2, and that one which ends in FAULT did not
take effect. -/
theorem resultRegisterWriters : Obligations.ResultRegisterWriters := by
  refine ⟨fun i s t h => ?_, fun s v => ⟨rfl, rfl, rfl, by simp [serve, accessed, Reg.at, State.respond]⟩,
    rfl, rfl, rfl⟩
  have hfault : t.phase = .fault → t.res0 = s.res0 ∧ t.res1 = s.res1 ∧ t.res2 = s.res2 := fun ht =>
    (unexecuted_of_fault h ht).registers.2.2
  rcases exec_registers h with ⟨rfl, rfl⟩ | hk
  · exact ⟨.inr (.inl ⟨rfl, rfl⟩), .inr (.inl ⟨rfl, rfl⟩), .inr (.inl ⟨rfl, rfl⟩), fun _ => ⟨rfl, rfl, rfl⟩,
      hfault⟩
  · refine ⟨hk.res0.imp_right .inr, hk.res1.imp_right .inr, hk.res2.imp_right .inr, ?_, hfault⟩
    rintro rfl
    rw [exec_clear] at h
    injection h with h
    subst h
    exact ⟨rfl, rfl, rfl⟩

/-! ## The words of STATUS, ERR and PARAM -/

/-- A word laid out as STATUS, read back field by field (R27). -/
theorem statusLayout_fields (r d f : Bool) (c : BitVec 3) :
    let w : Word := 0#25 ++ BitVec.ofBool r ++ BitVec.ofBool d ++ BitVec.ofBool f ++ 0#1 ++ c
    w.extractLsb' 0 3 = c ∧ w.getLsbD 4 = f ∧ w.getLsbD 5 = d ∧ w.getLsbD 6 = r ∧
      ∀ j < 32, j = 3 ∨ 7 ≤ j → w.getLsbD j = false := by
  revert r d f c
  decide

/-- Settles O22: field by field of the two words, then code by code. -/
theorem statusAndErrFields : Obligations.StatusAndErrFields := by
  intro s
  obtain ⟨hphase, hfail, hdegen, hrunv, hzero⟩ :=
    statusLayout_fields s.runv s.degenFlag s.failFlag s.phase.code
  change s.statusWord.extractLsb' 0 3 = _ at hphase
  change s.statusWord.getLsbD 4 = _ at hfail
  change s.statusWord.getLsbD 5 = _ at hdegen
  refine ⟨?_, ?_, ?_, hrunv, fun j hj => ?_, ?_⟩
  · rw [hphase]
    cases s.phase <;> rfl
  · rw [hfail, State.failFlag, beq_iff_eq]
  · rw [hdegen, State.degenFlag, beq_iff_eq]
  · by_cases h : j < 32
    · exact hzero j h hj
    · exact BitVec.getLsbD_of_ge _ _ (by omega)
  · unfold State.errWord
    cases s.err <;> rfl

/-- A word laid out as PARAM, bit by bit (R40). -/
theorem paramLayout_getLsbD (n : BitVec 6) (m : BitVec 5) (j : Nat) :
    (0#18 ++ n ++ 0#3 ++ m : Word).getLsbD j =
      if j < 5 then m.getLsbD j else if j < 8 then false else n.getLsbD (j - 8) := by
  refine (BitVec.getLsbD_append (x := 0#18 ++ n ++ 0#3) (y := m) (i := j)).trans ?_
  rw [BitVec.getLsbD_append, BitVec.getLsbD_append]
  by_cases h5 : j < 5
  · rw [if_pos h5, if_pos h5]
  · by_cases h8 : j < 8
    · rw [if_neg h5, if_pos (by omega), if_neg h5, if_pos h8, BitVec.getLsbD_zero]
    · rw [if_neg h5, if_neg (by omega), if_neg h5, if_neg h8, show j - 5 - 3 = j - 8 by omega]
      split
      · rfl
      · rw [BitVec.getLsbD_zero, BitVec.getLsbD_of_ge n _ (by omega)]

theorem paramLayout_fields (n : BitVec 6) (m : BitVec 5) :
    (0#18 ++ n ++ 0#3 ++ m : Word).extractLsb' 0 5 = m ∧
      (0#18 ++ n ++ 0#3 ++ m : Word).extractLsb' 8 6 = n := by
  constructor
  · refine BitVec.eq_of_getLsbD_eq fun k hk => ?_
    rw [BitVec.getLsbD_extractLsb', paramLayout_getLsbD]
    simp [hk]
  · refine BitVec.eq_of_getLsbD_eq fun k hk => ?_
    rw [BitVec.getLsbD_extractLsb', paramLayout_getLsbD, if_neg (by omega), if_neg (by omega)]
    simp [hk]

/-- Settles O23: the legal parameters fit their fields, and no step changes them. -/
theorem paramIsConstant : Obligations.ParamIsConstant := by
  refine ⟨fun s hp => ?_, by decide, fun s t h => ?_⟩
  · obtain ⟨hsymw, hcntw⟩ := paramLayout_fields (BitVec.ofNat 6 s.par.cntw) (BitVec.ofNat 5 s.par.symw)
    change s.paramWord.extractLsb' 0 5 = _ at hsymw
    change s.paramWord.extractLsb' 8 6 = _ at hcntw
    obtain ⟨⟨-, hs⟩, -, hc⟩ := hp
    refine ⟨?_, ?_, fun j hj => (paramLayout_getLsbD _ _ j).trans ?_⟩
    · rw [hsymw, BitVec.toNat_ofNat, Nat.mod_eq_of_lt (by omega)]
    · rw [hcntw, BitVec.toNat_ofNat, Nat.mod_eq_of_lt (by omega)]
    · rw [if_neg (by omega)]
      split
      · rfl
      · exact BitVec.getLsbD_of_ge _ _ (by omega)
  · rw [State.paramWord, State.paramWord, step_par h]

/-- Settles O12: every item by its definition; CLEAR of the reset state is the reset state. -/
theorem resetValues : Obligations.ResetValues := by
  refine ⟨rfl, by decide, fun p => ?_⟩
  have hclear : (State.resetWith p).clear = State.resetWith p := rfl
  have hstatus : (State.resetWith p).statusWord = 0 := by
    change (0#25 ++ BitVec.ofBool false ++ BitVec.ofBool false ++ BitVec.ofBool false ++ 0#1 ++ 0#3 : Word) = 0
    decide
  have herr : (State.resetWith p).errWord = 0 := by
    change (0#28 ++ 0#4 : Word) = 0
    decide
  exact ⟨rfl, rfl, rfl, rfl, rfl, hstatus, rfl, rfl, rfl, rfl, herr, rfl, rfl, rfl, rfl, rfl, rfl, rfl,
    fun _ => rfl, fun _ => rfl, fun _ => rfl, rfl, by rw [exec_clear, hclear]⟩

end Sys2Proof.Machine
end

section
/-!
PROOFS. The widths of the items in a state that meets the invariant (10_state.md R34 to R43,
41_tree_builder.md R150).
-/

namespace Sys2Proof.Machine

variable {s t : State} {p : Phase}

/-! ## The tree of a call -/

/-- From BUILD on, the state is what BUILD makes of its own table in an empty NODE (R44 item 5). -/
theorem State.Call.built_self (h : s.Call p) (hp : p = .htree ∨ p = .hcode) :
    Built { s with node := [] } { s with phase := .htree } := by
  obtain ⟨-, heq⟩ := h.tree hp
  have hb := Built.of_pq (s := { s with node := [] }) (r := s.root) (rest := []) (by simp only [heq])
  simpa only [heq] using hb

/-- A child's frequency is at most its parent's. -/
theorem Built.freq_le_parent (h : Built s t) {j : Nat} (hj : j < t.nnodes) (hne : j ≠ t.root) :
    ∃ m, j < m ∧ m < t.nnodes ∧ (t.nodeAt j).freq ≤ (t.nodeAt m).freq := by
  have hfree : ¬Free t.node s.present.length t.nnodes j := fun hf => hne ((h.free j).1 hf)
  obtain ⟨m, hL, hm, hchild⟩ : ∃ m, s.present.length ≤ m ∧ m < t.nnodes ∧
      ((t.nodeAt m).left = j ∨ (t.nodeAt m).right = j) := by
    by_contra hno
    refine hfree ⟨hj, fun m hL hm => ?_⟩
    exact ⟨fun hl => hno ⟨m, hL, hm, .inl hl⟩, fun hr => hno ⟨m, hL, hm, .inr hr⟩⟩
  obtain ⟨x, y, -, hx, hy, -, -, hrec⟩ := h.merged m hL hm
  have hfreq : (t.nodeAt m).freq = (t.nodeAt x).freq + (t.nodeAt y).freq := congrArg Node.freq hrec
  have hxy : j = x ∨ j = y := hchild.imp (fun hl => hl.symm.trans (congrArg Node.left hrec))
    fun hr => hr.symm.trans (congrArg Node.right hrec)
  rcases hxy with rfl | rfl
  · exact ⟨m, hx.1, hm, by omega⟩
  · exact ⟨m, hy.1, hm, by omega⟩

/-- No node has a frequency above the root's. -/
theorem Built.freq_le_root (h : Built s t) {j : Nat} (hj : j < t.nnodes) :
    (t.nodeAt j).freq ≤ (t.nodeAt t.root).freq := by
  by_cases hne : j = t.root
  · rw [hne]
  · obtain ⟨m, hlt, hm, hle⟩ := h.freq_le_parent hj hne
    exact hle.trans (h.freq_le_root hm)
termination_by t.nnodes - j

/-- Terms that are 0 add nothing to a sum. -/
theorem sum_map_filter_ne_zero (l : List Nat) (g : Nat → Nat) :
    ((l.filter fun a => decide (g a ≠ 0)).map g).sum = (l.map g).sum := by
  induction l with
  | nil => rfl
  | cons b l ih =>
    by_cases h : g b = 0
    · simpa [h] using ih
    · simpa [h] using ih

/-- The root's frequency is the sum of the table (R150). -/
theorem Built.freq_root (h : Built s t) : (t.nodeAt t.root).freq = s.freqSum := by
  obtain ⟨T, hrep, -, hleaves, -⟩ := h.tree
  have hsum := (hleaves.map Prod.fst).sum_eq
  rw [List.map_map] at hsum
  calc (t.nodeAt t.root).freq = T.weight := hrep.freq_eq
    _ = (T.leaves.map Prod.fst).sum := T.weight_eq
    _ = (s.present.map s.freqAt).sum := hsum
    _ = s.freqSum := sum_map_filter_ne_zero _ _

/-- Children lie below NNODES (R42). -/
theorem Built.child_lt (h : Built s t) {j : Nat} (hj : j < t.nnodes) :
    (t.nodeAt j).left < t.nnodes ∧ (t.nodeAt j).right < t.nnodes := by
  rcases h.node_cases hj with ⟨a, -, hrec⟩ | ⟨x, y, hx, hy, hrec⟩
  · rw [hrec]
    exact ⟨(Nat.zero_le j).trans_lt hj, (Nat.zero_le j).trans_lt hj⟩
  · rw [hrec]
    exact ⟨hx.trans hj, hy.trans hj⟩

/-- A code of the tree of L leaves has at most L − 1 bits, and 1 where L = 1 (R150 item 8, R173). -/
theorem HTree.codes_length (T : HTree) : ∀ e ∈ T.codes, e.2.length ≤ max 1 (T.leaves.length - 1) := by
  intro e he
  cases T with
  | leaf f a =>
    rw [List.mem_singleton.1 he]
    exact le_max_left _ _
  | node l r =>
    have := HTree.path_length _ e he
    omega

/-! ## The bounds, item by item -/

theorem maxnodes_lt {q : Params} : q.maxnodes < 2 ^ q.idxw := by
  have := Nat.two_pow_pos q.symw
  rw [Params.maxnodes, Params.idxw, Params.nsym, pow_succ]
  omega

theorem State.Call.nsyms_le (h : s.Call p) : s.nsyms ≤ s.par.nsym := h.nsyms_eq ▸ s.present_length_le

/-- RLECNT is 0 on the Huffman path and at most TOTAL on the run-length path. -/
theorem State.Call.rlecnt_le (h : s.Call p) (hp : p ≠ .fault) : s.rlecnt ≤ s.par.cntmax := by
  by_cases hr : p = .rlerun ∨ p = .rledone
  · exact (h.rle hr).2.2.trans h.total_le
  · rw [(h.huffman (by cases p <;> simp at hp hr ⊢)).2.2]
    exact Nat.zero_le _

/-- A count is at most TOTAL on the Huffman path and 0 on the run-length path. -/
theorem State.Call.freqAt_le (h : s.Call p) (hp : p ≠ .fault) (a : Nat) : s.freqAt a ≤ s.par.cntmax := by
  by_cases hr : p = .rlerun ∨ p = .rledone
  · rw [State.freqAt, (h.rle hr).1]
    exact Nat.zero_le _
  by_cases ha : a < s.par.nsym
  · have hsum := (h.huffman (by cases p <;> simp at hp hr ⊢)).1
    exact (State.freqAt_le_freqSum ha).trans (hsum ▸ h.total_le)
  · rw [State.freqAt, Memory.read_unlisted h.mem.freq_in (by omega)]
    exact Nat.zero_le _

/-- NNODES and ROOT: none of either before BUILD, then ROOT = NNODES − 1 and NNODES ≤ MAXNODES. -/
theorem State.Call.root_nnodes (h : s.Call p) :
    (s.nnodes = 0 ∧ s.root = 0) ∨ (s.root + 1 = s.nnodes ∧ s.nnodes ≤ s.par.maxnodes) := by
  by_cases hp : p = .htree ∨ p = .hcode
  · have hb := h.built_self hp
    exact .inr ⟨hb.root, hb.nnodes_le⟩
  · have hp := not_or.1 hp
    have ht := h.treeless hp.1 hp.2
    exact .inl ⟨ht.1, ht.2.1⟩

/-- A record is all zero, or one of the tree's. -/
theorem State.Call.node_fits (h : s.Call p) (j : Nat) :
    (s.nodeAt j).freq ≤ s.par.cntmax ∧ (s.nodeAt j).sym < 2 ^ s.par.symw ∧
      (s.nodeAt j).left < 2 ^ s.par.idxw ∧ (s.nodeAt j).right < 2 ^ s.par.idxw := by
  by_cases hz : s.nodeAt j = Node.zero
  · rw [hz]
    exact ⟨Nat.zero_le _, Nat.two_pow_pos _, Nat.two_pow_pos _, Nat.two_pow_pos _⟩
  have hp : p = .htree ∨ p = .hcode := by
    by_contra hp
    have hp := not_or.1 hp
    exact hz (by rw [State.nodeAt, (h.treeless hp.1 hp.2).2.2]; rfl)
  have hb := h.built_self hp
  have hj : j < s.nnodes := by
    by_contra hj
    exact hz (hb.old j (Nat.le_of_not_lt hj))
  have hfreq : (s.nodeAt j).freq ≤ s.freqSum := (hb.freq_le_root hj).trans hb.freq_root.le
  have hsum : s.total = s.freqSum := (h.huffman (.inr (.inr hp))).1
  obtain ⟨hl, hr⟩ := hb.child_lt hj
  have hn : s.nnodes ≤ s.par.maxnodes := hb.nnodes_le
  have hmax := maxnodes_lt (q := s.par)
  exact ⟨hfreq.trans (hsum ▸ h.total_le), h.mem.node_sym _ (Memory.mem_of_read_ne hz),
    hl.trans_le (hn.trans hmax.le), hr.trans_le (hn.trans hmax.le)⟩

/-- A code has at most MAXCODE bits (R43). -/
theorem State.Call.code_fits (h : s.Call p) (a : Nat) : (s.codeAt a).length ≤ s.par.maxcode := by
  by_cases hz : s.codeAt a = []
  · rw [hz]
    exact Nat.zero_le _
  by_cases hp : p = .hcode
  · have hb := h.built_self (.inr hp)
    obtain ⟨T, hrep, hsize, hleaves, -⟩ := hb.tree
    have hcode : some s.code = some (writeAll [] T.codes) :=
      (h.table hp).symm.trans (codeTable_spec hrep hsize)
    injection hcode with hcode
    have hmem : (a, s.codeAt a) ∈ T.codes := by
      refine ((CodesOf.of_leaves hleaves).mem a _ hz).1 ?_
      rw [← hcode]
      rfl
    have hlen : (s.codeAt a).length ≤ _ := T.codes_length _ hmem
    have hle : T.leaves.length ≤ s.par.nsym := by
      rw [hleaves.length_eq, List.length_map]
      exact State.present_length_le _
    have hn := le_nsym_of_legal h.mem.legal
    rw [Params.maxcode]
    omega
  · rw [State.codeAt, h.codeless hp] at hz
    exact absurd rfl hz

/-- Settles O57: in FAULT too the data is that of a phase of the call. -/
theorem everyItemFitsItsWidth : Obligations.EveryItemFitsItsWidth := by
  intro s hs
  have herr : s.phase ≠ .fault → s.err = .none ∧ s.errcmd = 0 := by
    rcases hs with ⟨-, -, he⟩ | ⟨hf, -⟩
    · exact fun _ => he
    · exact fun hf' => absurd hf hf'
  obtain ⟨p, hp, h⟩ : ∃ p, p ≠ .fault ∧ s.Call p := by
    rcases hs with ⟨hf, h, -⟩ | ⟨-, -, p, hp, h⟩
    · exact ⟨_, hf, h⟩
    · exact ⟨p, hp, h⟩
  have hroot := h.root_nnodes
  have hmax := maxnodes_lt (q := s.par)
  exact ⟨h.nsyms_le, h.total_le, by omega, by omega, by omega, by omega, h.mem.rlesym_in, h.rlecnt_le hp,
    h.freqAt_le hp, h.node_fits, h.code_fits, h.mem.out_in, herr⟩

end Sys2Proof.Machine
end

section
/-!
PROOFS. What a host access reaches: the offsets of the registers, reads, writes and the refused accesses
(20_memory.md R61 to R64), the write to CMD as a step (R68, R71), and which commands write the internal
memories (R70, 10_state.md R45).
-/

namespace Sys2Proof.Machine

variable {i : Instr} {s t : State} {r : Reg} {off size : Nat} {v w : Word}

/-! ## The offsets of the window -/

/-- The byte offset of a register (R25); `Reg.at` looks registers up by it. -/
def Reg.offset : Reg → Nat
  | .cmd => 0x00
  | .arg => 0x04
  | .status => 0x08
  | .err => 0x0C
  | .errcmd => 0x10
  | .res0 => 0x14
  | .res1 => 0x18
  | .res2 => 0x1C
  | .nsyms => 0x20
  | .total => 0x24
  | .nnodes => 0x28
  | .root => 0x2C
  | .rlesym => 0x30
  | .rlecnt => 0x34
  | .param => 0x38

@[simp] theorem Reg.at_offset (r : Reg) : Reg.at r.offset = some r := by
  cases r <;> rfl

theorem Reg.offset_of_at (h : Reg.at off = some r) : off = r.offset := by
  unfold Reg.at at h
  split at h <;> cases h <;> rfl

/-- Every register lies at a multiple of 4 below 0x3C (R25). -/
theorem Reg.offset_aligned (r : Reg) : r.offset % 4 = 0 ∧ r.offset < 0x3C := by
  cases r <;> decide

/-- An access reaches a register exactly where it is 4 bytes wide and at the register's offset (R63). -/
theorem accessed_eq_some_iff : accessed off size = some r ↔ size = 4 ∧ off = r.offset := by
  unfold accessed
  constructor
  · intro h
    split at h
    · exact ⟨‹_›, Reg.offset_of_at h⟩
    · cases h
  · rintro ⟨rfl, rfl⟩
    rw [if_pos rfl, Reg.at_offset]

@[simp] theorem accessed_offset (r : Reg) : accessed r.offset 4 = some r :=
  accessed_eq_some_iff.2 ⟨rfl, rfl⟩

/-! ## Reads -/

/-- A 32-bit read of a register that has a value answers the value (R61). -/
theorem serve_read_register (r : Reg) (h : readReg s r = some w) :
    serve (.read r.offset 4) s = .next (s.respond (.okayRead w)) := by
  simp [serve, readResponse, h]

/-- A read that reaches no register, or CMD, is refused (R61, R64). -/
theorem serve_read_refused (h : ∀ r, accessed off size = some r → r = .cmd) :
    serve (.read off size) s = .next (s.respond .error) := by
  cases hr : accessed off size with
  | none => simp [serve, readResponse, hr]
  | some r =>
    cases h r hr
    simp [serve, readResponse, hr, readReg]

/-- Settles O19: register by register; a register's offset is aligned and below 0x3C, and that of CMD alone
is 0. -/
theorem readAnswersRegister : Obligations.ReadAnswersRegister := by
  refine fun s off size => ⟨serve_read_register .arg rfl, serve_read_register .status rfl,
    serve_read_register .err rfl, serve_read_register .errcmd rfl, serve_read_register .res0 rfl,
    serve_read_register .res1 rfl, serve_read_register .res2 rfl, serve_read_register .nsyms rfl,
    serve_read_register .total rfl, serve_read_register .nnodes rfl, serve_read_register .root rfl,
    serve_read_register .rlesym rfl, serve_read_register .rlecnt rfl, serve_read_register .param rfl,
    fun hoff => serve_read_refused fun r hr => ?_⟩
  obtain ⟨hsize, rfl⟩ := accessed_eq_some_iff.1 hr
  have haligned := r.offset_aligned
  have hzero : r.offset = 0x00 := by omega
  exact Option.some.inj (r.at_offset.symm.trans (congrArg Reg.at hzero))

/-! ## Writes -/

/-- A 32-bit write to CMD answers OKAY on what its word does (R62). -/
theorem serve_write_cmd : serve (.write Reg.cmd.offset 4 w) s = answer .okayWrite (runWord w s) := by
  simp [serve]

theorem serve_write_arg :
    serve (.write Reg.arg.offset 4 v) s = .next ({ s with arg := v }.respond .okayWrite) := by
  simp [serve]

/-- A write that reaches neither CMD nor ARG is refused (R62, R64). -/
theorem serve_write_refused (hcmd : accessed off size ≠ some .cmd) (harg : accessed off size ≠ some .arg) :
    serve (.write off size v) s = .next (s.respond .error) := by
  unfold serve
  dsimp only
  split
  · exact absurd ‹_› hcmd
  · exact absurd ‹_› harg
  · rfl

/-- Settles O20: the three accesses `serve` tells apart; one of another size or at another offset reaches
neither CMD nor ARG. -/
theorem writeReachesArgOrCommand : Obligations.WriteReachesArgOrCommand := by
  refine fun s v off size => ⟨serve_write_arg, fun t ht => ?_, fun hoff => ?_⟩
  · exact serve_write_cmd.trans (by rw [ht]; rfl)
  · have hother : ∀ r : Reg, r.offset = 0x00 ∨ r.offset = 0x04 → accessed off size ≠ some r := by
      intro r hr h
      obtain ⟨hsize, rfl⟩ := accessed_eq_some_iff.1 h
      omega
    exact serve_write_refused (hother .cmd (.inl rfl)) (hother .arg (.inr rfl))

/-! ## The write to CMD as a step -/

theorem runWord_of_decode (h : decode w = .ok i) : runWord w s = exec i s := by
  simp [runWord, h]

/-- Where a command word is next to be written to CMD, the step executes the command and answers OKAY
(R62, R71). -/
theorem step_command {rest : List Input} (hd : decode w = .ok i)
    (hs : s.inputs = .bus (.write 0x00 4 w) :: rest) :
    step s = answer .okayWrite (exec i { s with inputs := rest }) := by
  have hserve : step s = serve (.write 0x00 4 w) { s with inputs := rest } := by
    simp [step, hs, takeInput]
  rw [hserve, ← runWord_of_decode hd]
  exact serve_write_cmd

/-- Settles O4: a word placed by `withFetchWord` is next in store, with the inputs of before behind it. -/
theorem stepRunsDecodedCommand : Obligations.StepRunsDecodedCommand := by
  refine fun s w i hd => ⟨fun rest hs => ⟨fun t ht => ?_, fun f hf => ?_⟩, fun t ht => ?_⟩
  · rw [step_command hd hs, ht]
    rfl
  · rw [step_command hd hs, hf]
    rfl
  · have hnext : (s.withFetchWord 32 w.toNat).inputs = .bus (.write 0x00 4 w) :: s.inputs := by
      simp [State.withFetchWord]
    rw [step_command hd hnext]
    exact congrArg (answer .okayWrite) ht

/-! ## Which commands write the internal memories -/

/-- Each internal memory is as before but for the commands that write it, and OUT is at most extended by
one of those that deliver characters (R45, R70). -/
structure KeepsMemories (i : Instr) (s t : State) : Prop where
  freq : t.freq = s.freq ∨ (∃ a, i = .count a) ∨ ∃ a, i = .loadf a
  node : t.node = s.node ∨ i = .build 0
  code : t.code = s.code ∨ i = .gencode 0
  out : t.out = s.out ∨
    (∃ cs, t.out = s.out ++ cs) ∧ ((∃ a, i = .emit a) ∨ (∃ a, i = .rleput a) ∨ i = .rleend 0)

/-- A command that was ignored or failed left every internal memory as it was (R236). -/
theorem Unexecuted.keepsMemories (h : Unexecuted i s t) : KeepsMemories i s t := by
  rcases h with ⟨-, rfl⟩ | ⟨-, c, -, rfl⟩ <;> exact ⟨.inl rfl, .inl rfl, .inl rfl, .inl rfl⟩

/-- CLEAR aside, a command keeps the internal memories it does not write. -/
theorem exec_memories (h : exec i s = .next t) (hi : i ≠ .clear 0) : KeepsMemories i s t := by
  cases i with
  | nop o =>
    rcases execNop_next h with h | ⟨-, -, rfl⟩
    · exact h.keepsMemories
    · exact ⟨.inl rfl, .inl rfl, .inl rfl, .inl rfl⟩
  | clear o =>
    rcases execClear_next h with h | ⟨rfl, -⟩
    · exact h.keepsMemories
    · exact absurd rfl hi
  | count a =>
    rcases execCount_next h with h | ⟨-, -, -, rfl⟩
    · exact h.keepsMemories
    · exact ⟨.inr (.inl ⟨a, rfl⟩), .inl rfl, .inl rfl, .inl rfl⟩
  | loadf a =>
    rcases execLoadf_next h with h | ⟨new, -, -, -, -, rfl⟩
    · exact h.keepsMemories
    · exact ⟨.inr (.inr ⟨a, rfl⟩), .inl rfl, .inl rfl, .inl rfl⟩
  | rdfreq a =>
    rcases execRdfreq_next h with h | ⟨-, -, rfl⟩
    · exact h.keepsMemories
    · exact ⟨.inl rfl, .inl rfl, .inl rfl, .inl rfl⟩
  | build o =>
    rcases execBuild_next h with h | ⟨r, rest, -, rfl, -, -, rfl⟩
    · exact h.keepsMemories
    · exact ⟨.inl rfl, .inr rfl, .inl rfl, .inl rfl⟩
  | rdnode x =>
    rcases execRdnode_next h with h | ⟨-, -, rfl⟩
    · exact h.keepsMemories
    · exact ⟨.inl rfl, .inl rfl, .inl rfl, .inl rfl⟩
  | gencode o =>
    rcases execGencode_next h with h | ⟨code, -, rfl, -, rfl⟩
    · exact h.keepsMemories
    · exact ⟨.inl rfl, .inl rfl, .inr rfl, .inl rfl⟩
  | rdcode a =>
    rcases execRdcode_next h with h | ⟨-, -, -, rfl⟩
    · exact h.keepsMemories
    · exact ⟨.inl rfl, .inl rfl, .inl rfl, .inl rfl⟩
  | emit a =>
    rcases execEmit_next h with h | ⟨-, -, -, rfl⟩
    · exact h.keepsMemories
    · exact ⟨.inl rfl, .inl rfl, .inl rfl, .inr ⟨⟨_, rfl⟩, .inl ⟨a, rfl⟩⟩⟩
  | rleput a =>
    rcases execRleput_feeds h with h | ⟨-, -, -, u, cnt, rfl | ⟨-, rfl⟩, -, rfl⟩
    · exact h.keepsMemories
    · exact ⟨.inl rfl, .inl rfl, .inl rfl, .inl rfl⟩
    · exact ⟨.inl rfl, .inl rfl, .inl rfl, .inr ⟨⟨_, rfl⟩, .inr (.inl ⟨a, rfl⟩)⟩⟩
  | rleend o =>
    rcases execRleend_next h with h | ⟨rfl, -, -, rfl⟩
    · exact h.keepsMemories
    · exact ⟨.inl rfl, .inl rfl, .inl rfl, .inr ⟨⟨_, rfl⟩, .inr (.inr rfl)⟩⟩

/-- OUT only grows at its end (R45). -/
theorem KeepsMemories.out_extends (h : KeepsMemories i s t) : ∃ cs, t.out = s.out ++ cs := by
  rcases h.out with h | ⟨h, -⟩
  · exact ⟨[], by rw [h, List.append_nil]⟩
  · exact h

/-- Settles O26: a memory the command does not write is the same list, so every entry reads the same. -/
theorem internalMemoryWriters : Obligations.InternalMemoryWriters := by
  intro i s t h hi
  have hk := exec_memories h hi
  refine ⟨fun hcount hloadf b => ?_, fun hbuild j => ?_, fun hgencode b => ?_, hk.out_extends,
    fun hemit hrleput hrleend => ?_⟩
  · rcases hk.freq with hfreq | ⟨a, ha⟩ | ⟨a, ha⟩
    · exact congrArg (Memory.read 0 b) hfreq
    · exact absurd ha (hcount a)
    · exact absurd ha (hloadf a)
  · exact congrArg (Memory.read Node.zero j) (hk.node.resolve_right hbuild)
  · exact congrArg (Memory.read [] b) (hk.code.resolve_right hgencode)
  · rcases hk.out with hout | ⟨-, ⟨a, ha⟩ | ⟨a, ha⟩ | ha⟩
    · exact hout
    · exact absurd ha (hemit a)
    · exact absurd ha (hrleput a)
    · exact absurd ha hrleend

end Sys2Proof.Machine
end

section
/-!
PROOFS. The decoder inverts the encoder (30_encoding.md R90, R91, R94), and what the words with a reserved
opcode or an illegal operand do (R96, R97), with the tests that a legal command passes.
-/

namespace Sys2Proof.Machine

variable {i : Instr} {s : State} {w : Word} {op : Op} {opd : Opd}

/-! ## The round trip -/

theorem encode_of_decode (h : decode w = .ok i) : encode i = w := by
  have hfields : opField w = i.opcode ∧ opdField w = i.operand := by
    unfold decode at h
    split at h <;> cases h <;> exact ⟨BitVec.eq_of_toNat_eq ‹(opField w).toNat = _›, rfl⟩
  rw [encode, ← hfields.1, ← hfields.2]
  exact fields_append w

theorem decode_encode (i : Instr) : decode (encode i) = .ok i := by
  unfold decode
  rw [opField_encode, opdField_encode]
  cases i <;> rfl

theorem decode_eq_ok_iff : decode w = .ok i ↔ encode i = w :=
  ⟨encode_of_decode, fun h => h ▸ decode_encode i⟩

/-- Settles O1: the two fields of a word are the opcode and the operand of the command it decodes to. -/
theorem encodeDecodeRoundTrip : Obligations.EncodeDecodeRoundTrip :=
  ⟨decode_encode, fun _ _ => encode_of_decode⟩

/-! ## Match and mask -/

theorem opcodeRow (i : Instr) : Laws.OpcodeRow.Statement i := by
  cases i with
  | nop o => exact Laws.OpcodeRow.nop o
  | clear o => exact Laws.OpcodeRow.clear o
  | count a => exact Laws.OpcodeRow.count a
  | loadf a => exact Laws.OpcodeRow.loadf a
  | rdfreq a => exact Laws.OpcodeRow.rdfreq a
  | build o => exact Laws.OpcodeRow.build o
  | rdnode x => exact Laws.OpcodeRow.rdnode x
  | gencode o => exact Laws.OpcodeRow.gencode o
  | rdcode a => exact Laws.OpcodeRow.rdcode a
  | emit a => exact Laws.OpcodeRow.emit a
  | rleput a => exact Laws.OpcodeRow.rleput a
  | rleend o => exact Laws.OpcodeRow.rleend o

/-- A row's match value is its opcode before an operand of 0 (R94). -/
theorem matchOf_eq (i : Instr) : Laws.matchOf i = i.opcode ++ 0#24 :=
  (opcodeRow i).symm.trans (mask_append _ _)

theorem mask_eq_iff_opField : w &&& 0xFF000000#32 = Laws.matchOf i ↔ opField w = i.opcode := by
  have hw : w &&& 0xFF000000#32 = opField w ++ 0#24 := by
    rw [← mask_append (opField w) (opdField w), fields_append]
  rw [hw, matchOf_eq]
  refine ⟨fun h => ?_, fun h => by rw [h]⟩
  rw [← opField_append (opField w) 0#24, h, opField_append]

/-- A command with the word's own operand field is the word's command exactly when the opcodes match. -/
theorem decode_iff_mask (ho : i.operand = opdField w) :
    decode w = .ok i ↔ w &&& 0xFF000000#32 = Laws.matchOf i := by
  rw [decode_eq_ok_iff, mask_eq_iff_opField, encode, ho]
  refine ⟨fun h => ?_, fun h => ?_⟩
  · rw [← h, opField_append]
  · rw [← h, fields_append]

/-- Settles O2: row by row, for the command with the operand field of the word. -/
theorem matchAndMaskSelectCommand : Obligations.MatchAndMaskSelectCommand := fun _ =>
  ⟨decode_iff_mask rfl, decode_iff_mask rfl, decode_iff_mask rfl, decode_iff_mask rfl, decode_iff_mask rfl,
    decode_iff_mask rfl, decode_iff_mask rfl, decode_iff_mask rfl, decode_iff_mask rfl, decode_iff_mask rfl,
    decode_iff_mask rfl, decode_iff_mask rfl⟩

/-! ## Reserved opcodes -/

theorem decode_reserved (h : ∀ i : Instr, i.opcode ≠ opField w) : decode w = .error .illegalCmd := by
  cases hd : decode w with
  | error e => rfl
  | ok i =>
    rw [← encode_of_decode hd] at h
    exact absurd (opField_encode i).symm (h i)

theorem runWord_reserved (hf : s.phase ≠ .fault) (h : ∀ i : Instr, i.opcode ≠ opField w) :
    runWord w s = .next (s.fail .illegalCmd w) := by
  simp [runWord, decode_reserved h, raiseIllegal, hf]

theorem opcode_mem (i : Instr) : i.opcode.toNat ∈ ([0x00, 0x01, 0x10, 0x11, 0x12, 0x20, 0x21, 0x30, 0x32,
    0x40, 0x50, 0x51] : List Nat) := by
  cases i <;> simp [Instr.opcode]

/-- Settles O5: a command's opcode is one of the twelve, so the word of another opcode is no command's. -/
theorem reservedOpcodeFails : Obligations.ReservedOpcodeFails := by
  refine ⟨by decide +kernel, by decide +kernel, fun n hn opd s hf => runWord_reserved hf fun i hi => ?_⟩
  obtain ⟨hlt, hne⟩ := List.mem_filter.1 hn
  have hop : i.opcode.toNat = n := by
    rw [hi, opField_append, BitVec.toNat_ofNat, Nat.mod_eq_of_lt (List.mem_range.1 hlt)]
  exact of_decide_eq_true hne (hop ▸ opcode_mem i)

/-! ## A command with a legal operand in a legal phase -/

theorem operandLegal_zero {p : Params} (h : Format.of i = .z) (ho : i.operand = 0) :
    operandLegal p i = true := by
  rw [operandLegal, h, ho]
  rfl

theorem operandLegal_symbol {p : Params} (h : Format.of i = .s) (ho : i.operand.toNat < p.nsym) :
    operandLegal p i = true := by
  rw [operandLegal, h]
  exact decide_eq_true ho

theorem not_fault_of_legalIn (h : legalIn s.phase i = true) : s.phase ≠ .fault := by
  intro hf
  rw [hf] at h
  cases i <;> cases h

/-- `command_pass`, the test for FAULT being part of the test of the phase. -/
theorem command_legal {body : Host.Outcome State Fault Refusal} (hl : legalIn s.phase i = true)
    (ho : operandLegal s.par i = true) : command i s body = body :=
  command_pass (not_fault_of_legalIn hl) ho hl

/-! ## Illegal operands -/

theorem runWord_encode : runWord (encode i) s = exec i s := runWord_of_decode (decode_encode i)

theorem runWord_illegalOperand (hf : s.phase ≠ .fault) (hw : i.wellFormed s.par = false) :
    runWord (encode i) s = .next (s.fail .badOperand (encode i)) :=
  runWord_encode.trans (exec_illegalOperand hf hw)

/-- A bit of ARG at or above CNTW makes the count of LOADF illegal (R93, R123). -/
theorem exec_loadf_wideArg (hp : s.phase = .idle ∨ s.phase = .hcount) (ha : opd.toNat < s.par.nsym)
    (harg : 2 ^ s.par.cntw ≤ s.arg.toNat) :
    exec (.loadf opd) s = .next (s.fail .badOperand (encode (.loadf opd))) := by
  have hl : legalIn s.phase (.loadf opd) = true := by simpa [legalIn] using hp
  rw [exec, execLoadf, command_legal hl (operandLegal_symbol rfl ha), countArg_eq, if_pos harg]
  rfl

/-- Settles O6: a nonzero operand of format Z and a symbol from NSYM on are refused by the shared test, a
wide ARG by LOADF's own. -/
theorem illegalOperandFails : Obligations.IllegalOperandFails := by
  intro s opd hf
  refine ⟨fun ho => ?_, fun ho => ?_, fun ha hp hj => ?_⟩
  · have hz : (opd == 0) = false := by simpa using ho
    simp only [List.forall_mem_cons, List.not_mem_nil, false_imp_iff, implies_true, and_true]
    exact ⟨runWord_illegalOperand (i := .nop opd) hf hz, runWord_illegalOperand (i := .clear opd) hf hz,
      runWord_illegalOperand (i := .build opd) hf hz, runWord_illegalOperand (i := .gencode opd) hf hz,
      runWord_illegalOperand (i := .rleend opd) hf hz⟩
  · have hs : decide (opd.toNat < s.par.nsym) = false := by simpa using ho
    simp only [List.forall_mem_cons, List.not_mem_nil, false_imp_iff, implies_true, and_true]
    exact ⟨runWord_illegalOperand (i := .count opd) hf hs, runWord_illegalOperand (i := .loadf opd) hf hs,
      runWord_illegalOperand (i := .rdfreq opd) hf hs, runWord_illegalOperand (i := .rdcode opd) hf hs,
      runWord_illegalOperand (i := .emit opd) hf hs, runWord_illegalOperand (i := .rleput opd) hf hs⟩
  · obtain ⟨j, hle, hbit⟩ := hj
    have harg : 2 ^ s.par.cntw ≤ s.arg.toNat :=
      (Nat.pow_le_pow_right (by decide) hle).trans (Nat.ge_two_pow_of_testBit hbit)
    exact (runWord_encode (i := .loadf opd)).trans (exec_loadf_wideArg hp ha harg)

end Sys2Proof.Machine
end

section
/-!
PROOFS. The run-length call from CLEAR to its end (44_rle.md R202 to R207), and empty input
(60_exceptions.md R232, 41_tree_builder.md R142, 44_rle.md R204).
-/

namespace Sys2Proof.Machine

variable {i : Instr} {s t : State} {w : Word} {a b : Opd} {cnt total : Nat} {out : List Nat}

/-! ## Empty input -/

/-- R142. -/
theorem exec_build_empty (hp : s.phase = .idle ∨ s.phase = .hcount) (hn : s.nsyms = 0) :
    exec (.build 0) s = .next (s.fail .emptyInput 0x20000000#32) := by
  have hl : legalIn s.phase (.build 0) = true := by simpa [legalIn] using hp
  rw [exec, execBuild, command_legal hl (operandLegal_zero rfl rfl), if_pos hn]
  rfl

/-- R204. -/
theorem exec_rleend_empty (hp : s.phase = .idle ∨ s.phase = .rlerun) (hr : s.runv = false) :
    exec (.rleend 0) s = .next (s.fail .emptyInput 0x51000000#32) := by
  have hl : legalIn s.phase (.rleend 0) = true := by simpa [legalIn] using hp
  rw [exec, execRleend, command_legal hl (operandLegal_zero rfl rfl), if_pos hr]
  rfl

/-- R203. -/
theorem exec_rleend_run (hp : s.phase = .idle ∨ s.phase = .rlerun) (hr : s.runv = true) :
    exec (.rleend 0) s =
      .next { s.append (runToken s.rlesym s.rlecnt) with runv := false, phase := .rledone } := by
  have hl : legalIn s.phase (.rleend 0) = true := by simpa [legalIn] using hp
  rw [exec, execRleend, command_legal hl (operandLegal_zero rfl rfl), if_neg (by simp [hr])]

/-- EMPTY_INPUT is the cause of BUILD and RLEEND alone: it keeps OUT, and was found in a phase of BUILD or
without an open run. -/
theorem exec_emptyInput (hf : s.phase ≠ .fault) (h : exec i s = .next t) (ht : t.phase = .fault)
    (he : t.err = .emptyInput) :
    t.out = s.out ∧ ((s.phase = .idle ∨ s.phase = .hcount) ∨
      ((s.phase = .idle ∨ s.phase = .rlerun) ∧ s.runv = false)) := by
  have hw : i.wellFormed s.par = true := by
    by_contra hw
    rw [exec_illegalOperand hf (Bool.eq_false_iff.2 hw)] at h
    cases h
    cases he
  have hl : legalIn s.phase i = true := by
    by_contra hl
    rw [exec_illegalPhase hf hw (Bool.eq_false_iff.2 hl)] at h
    cases h
    cases he
  obtain ⟨-, rfl⟩ := exec_ownCause hf hw hl h ht
  refine ⟨rfl, ?_⟩
  cases i with
  | build o => exact .inl (by simpa [legalIn] using hl)
  | rleend o =>
    have hp : s.phase = .idle ∨ s.phase = .rlerun := by simpa [legalIn] using hl
    have ho : o = 0 := by simpa [Instr.wellFormed] using hw
    refine .inr ⟨hp, Bool.eq_false_iff.2 fun hr => ?_⟩
    rw [ho, exec_rleend_run hp hr] at h
    injection h with h
    cases congrArg State.phase h
  | loadf a =>
    rw [State.fail_err, ownCause] at he
    split at he <;> cases he
  | nop | clear | count | rdfreq | rdnode | gencode | rdcode | emit | rleput => cases he

theorem State.Inv.call (h : s.Inv) (hf : s.phase ≠ .fault) : s.Call s.phase ∧ s.err = .none := by
  rcases h with ⟨-, hc, he, -⟩ | ⟨hf', -⟩
  · exact ⟨hc, he⟩
  · exact absurd hf' hf

/-- Settles O52: EMPTY_INPUT is found where nothing is delivered yet; in the call of the empty text it is
found right after CLEAR, and GENCODE is ignored in FAULT. -/
theorem emptyInputNeverGivesOutput : Obligations.EmptyInputNeverGivesOutput := by
  refine ⟨fun w s t hs hf h he => ?_, fun s => ⟨?_, ?_⟩⟩
  · obtain ⟨hcall, hnone⟩ := hs.call hf
    rcases runWord_next h with ⟨i, -, hi⟩ | ⟨-, ⟨hf', -⟩ | ⟨-, rfl⟩⟩
    · have ht : t.phase = .fault := by
        rcases hcall.exec hf hi with hun | ⟨-, rfl⟩ | ⟨-, -, herr, -⟩
        · exact hun.phase_eq
        · cases he
        · rw [herr, hnone] at he
          cases he
      obtain ⟨hout, hp | ⟨hp, hr⟩⟩ := exec_emptyInput hf hi ht he
      · rw [hout, (hcall.beforeBuild hp).2.2.2.2]
      · have hidle : s.phase = .idle := hp.resolve_right fun hp => by
          rw [hcall.runv_iff.2 hp] at hr
          cases hr
        rw [hout, hcall.silent (.inl hidle)]
    · exact absurd hf' hf
    · cases he
  · rw [execAll_cons (exec_clear s), execAll_cons (exec_build_empty (.inl rfl) rfl)]
    exact execAll_ignored rfl (by simp)
  · rw [execAll_cons (exec_clear s), execAll_cons (exec_rleend_empty (.inl rfl) rfl)]
    rfl

/-! ## The run-length call -/

/-- `s` in the middle of a run-length call: a run of `cnt` symbols `a` is open, `total` symbols were fed
and OUT holds `out` (R38, R39, R45). -/
def State.openRun (a : Opd) (cnt total : Nat) (out : List Nat) (s : State) : State :=
  { s with rlesym := a.toNat, rlecnt := cnt, runv := true, total := total, phase := .rlerun, out := out }

theorem exec_rleput_first (hp : s.phase = .idle) (hr : s.runv = false) (ha : a.toNat < s.par.nsym)
    (ht : s.total < s.par.cntmax) : exec (.rleput a) s = .next (s.openRun a 1 (s.total + 1) s.out) := by
  have hl : legalIn s.phase (.rleput a) = true := by simp [legalIn, hp]
  rw [exec, execRleput, command_legal hl (operandLegal_symbol rfl ha), if_neg ht.ne, if_pos hr]
  rfl

theorem exec_rleput_same (ha : a.toNat < s.par.nsym) (ht : total < s.par.cntmax) :
    exec (.rleput a) (s.openRun a cnt total out) = .next (s.openRun a (cnt + 1) (total + 1) out) := by
  have hl : legalIn (s.openRun a cnt total out).phase (.rleput a) = true := rfl
  rw [exec, execRleput, command_legal hl (operandLegal_symbol rfl ha)]
  simp [State.openRun, symbolOf, ht.ne]

theorem exec_rleput_other (hab : a ≠ b) (hb : b.toNat < s.par.nsym) (ht : total < s.par.cntmax) :
    exec (.rleput b) (s.openRun a cnt total out) =
      .next (s.openRun b 1 (total + 1) (out ++ runToken a.toNat cnt)) := by
  have hl : legalIn (s.openRun a cnt total out).phase (.rleput b) = true := rfl
  have hne : b.toNat ≠ a.toNat := fun h => hab (BitVec.eq_of_toNat_eq h.symm)
  rw [exec, execRleput, command_legal hl (operandLegal_symbol rfl hb)]
  simp [State.openRun, State.append, symbolOf, ht.ne, hne]

/-- Feeding the open run's symbol lengthens the run and writes nothing. -/
theorem execAll_rleput_replicate (ha : a.toNat < s.par.nsym) (m : Nat) (ht : total + m ≤ s.par.cntmax) :
    execAll ((List.replicate m a).map .rleput) (s.openRun a cnt total out) =
      .next (s.openRun a (cnt + m) (total + m) out) := by
  induction m generalizing cnt total with
  | zero => rfl
  | succ m ih =>
    rw [List.replicate_succ, List.map_cons, execAll_cons (exec_rleput_same ha (by omega)), ih (by omega)]
    congr 2 <;> omega

/-- A whole run, from a state in which its first symbol opens it. -/
theorem execAll_rleput_run {u : State} {n : Nat} (ha : a.toNat < s.par.nsym) (hn : 1 ≤ n)
    (hfirst : exec (.rleput a) u = .next (s.openRun a 1 (total + 1) out)) (ht : total + n ≤ s.par.cntmax) :
    execAll ((List.replicate n a).map .rleput) u = .next (s.openRun a n (total + n) out) := by
  obtain ⟨m, rfl⟩ : ∃ m, n = m + 1 := ⟨n - 1, by omega⟩
  rw [List.replicate_succ, List.map_cons, execAll_cons hfirst, execAll_rleput_replicate ha m (by omega)]
  congr 2 <;> omega

/-- The symbols of an input, given as runs (R10, R207). -/
def spell (rs : List (Opd × Nat)) : List Opd := rs.flatMap fun r => List.replicate r.2 r.1

/-- The tokens of runs, in order (R201). -/
def tokens (rs : List (Opd × Nat)) : List Nat := rs.flatMap fun r => r.1.toNat :: dec r.2

/-- With a run open, the remaining runs and RLEEND deliver the open run's token and then theirs. -/
theorem execAll_runs (rs : List (Opd × Nat)) (hrs : ∀ r ∈ rs, r.1.toNat < s.par.nsym ∧ 1 ≤ r.2)
    (hchain : ((a, cnt) :: rs).IsChain fun r r' => r.1 ≠ r'.1)
    (ht : total + (rs.map Prod.snd).sum ≤ s.par.cntmax) :
    ∃ t, execAll ((spell rs).map .rleput ++ [.rleend 0]) (s.openRun a cnt total out) = .next t ∧
      t.phase = .rledone ∧ t.total = total + (rs.map Prod.snd).sum ∧
      t.out = out ++ runToken a.toNat cnt ++ tokens rs := by
  induction rs generalizing a cnt total out with
  | nil =>
    exact ⟨_, execAll_cons (exec_rleend_run (.inr rfl) rfl), rfl, rfl, by simp [tokens, State.openRun]⟩
  | cons r rs ih =>
    obtain ⟨b, n⟩ := r
    obtain ⟨hb, hn⟩ := hrs (b, n) (by simp)
    obtain ⟨hab, hchain⟩ := List.isChain_cons_cons.1 hchain
    simp only [List.map_cons, List.sum_cons] at ht ⊢
    have hother := exec_rleput_other (cnt := cnt) (total := total) (out := out) hab hb (by omega)
    have hrun := execAll_rleput_run hb hn hother (by omega)
    obtain ⟨t, hexec, hphase, htotal, hout⟩ := ih (fun r hr => hrs r (by simp [hr])) hchain
      (total := total + n) (out := out ++ runToken a.toNat cnt) (by omega)
    refine ⟨t, ?_, hphase, by omega, by rw [hout]; simp [tokens, runToken]⟩
    rw [spell, List.flatMap_cons, List.map_append, List.append_assoc, execAll_append hrun]
    exact hexec

/-- Settles O50: the first symbol after CLEAR opens the first run, and from there on a run is open until
RLEEND. -/
theorem rleCallSpellsRuns : Obligations.RleCallSpellsRuns := by
  intro s rs hne hrs hchain hsum
  obtain ⟨⟨a, n⟩, rs, rfl⟩ := List.exists_cons_of_ne_nil hne
  obtain ⟨ha, hn⟩ : a.toNat < s.clear.par.nsym ∧ 1 ≤ n := hrs (a, n) (by simp)
  simp only [List.map_cons, List.sum_cons] at hsum ⊢
  have hmax : n ≤ s.clear.par.cntmax := (Nat.le_add_right _ _).trans hsum
  have hrun := execAll_rleput_run (total := 0) ha hn (exec_rleput_first rfl rfl ha (hn.trans hmax))
    (by omega)
  obtain ⟨t, hexec, hphase, htotal, hout⟩ := execAll_runs (s := s.clear) (total := 0 + n) (out := []) rs
    (fun r hr => hrs r (by simp [hr])) hchain (by simpa using hsum)
  refine ⟨t, ?_, hphase, by omega, hout⟩
  rw [List.append_assoc, List.singleton_append, execAll_cons (exec_clear s), List.flatMap_cons,
    List.map_append, List.append_assoc, execAll_append hrun]
  exact hexec

end Sys2Proof.Machine
end

section
/-!
PROOFS. The Huffman call from CLEAR to the last EMIT (40_frequency.md R121, 41_tree_builder.md R141,
42_code_table.md R171 to R175, 43_huffman_emit.md R190 to R193).
-/

namespace Sys2Proof.Machine

variable {s t : State} {a : Opd} {x : List Opd}

/-! ## Counting -/

theorem exec_count (hp : s.phase = .idle ∨ s.phase = .hcount) (ha : a.toNat < s.par.nsym)
    (ht : s.total < s.par.cntmax) : exec (.count a) s = .next { s with
      nsyms := if s.freqAt a.toNat = 0 then s.nsyms + 1 else s.nsyms
      freq := Memory.write 0 a.toNat (s.freqAt a.toNat + 1) s.freq
      total := s.total + 1
      phase := .hcount } := by
  have hl : legalIn s.phase (.count a) = true := by simpa [legalIn] using hp
  rw [exec, execCount, command_legal hl (operandLegal_symbol rfl ha), if_neg ht.ne]
  rfl

/-- Counting a text completes and adds to each entry the symbol's occurrences (R121). -/
theorem execAll_count (hs : s.Inv) (hp : s.phase = .idle ∨ s.phase = .hcount)
    (hx : ∀ a ∈ x, a.toNat < s.par.nsym) (ht : s.total + x.length ≤ s.par.cntmax) :
    ∃ t, execAll (x.map .count) s = .next t ∧ t.Inv ∧ (t.phase = .idle ∨ t.phase = .hcount) ∧
      t.par = s.par ∧ ∀ b, t.freqAt b = s.freqAt b + (x.map BitVec.toNat).count b := by
  induction x generalizing s with
  | nil => exact ⟨s, rfl, hs, hp, rfl, fun b => rfl⟩
  | cons a x ih =>
    rw [List.length_cons] at ht
    have hexec := exec_count hp (hx a (by simp)) (by omega)
    obtain ⟨t, hall, hinv, hphase, hpar, hfreq⟩ := ih (hs.exec hexec) (.inr rfl)
      (fun c hc => hx c (by simp [hc])) (by dsimp only; omega)
    refine ⟨t, (execAll_cons hexec).trans hall, hinv, hphase, hpar, fun b => ?_⟩
    rw [hfreq b, State.freqAt, Memory.read_write, List.map_cons, List.count_cons]
    by_cases hab : a.toNat = b
    · subst hab
      simp only [if_pos, beq_self_eq_true]
      omega
    · simp [hab, State.freqAt]

/-! ## BUILD and GENCODE -/

/-- BUILD of a table with an entry completes (R141, R146). -/
theorem exec_build_built (hp : s.phase = .idle ∨ s.phase = .hcount) (hn : s.nsyms ≠ 0)
    (hpres : s.present ≠ []) : ∃ t, exec (.build 0) s = .next t ∧ Built s t := by
  have hl : legalIn s.phase (.build 0) = true := by simpa [legalIn] using hp
  have hne : leafList s.par s.freq ≠ [] := by simpa [leafList_eq] using hpres
  obtain ⟨T, hpq, -⟩ := buildTree_spec (node := s.node) hne
  refine ⟨_, ?_, Built.of_pq hpq⟩
  rw [exec, execBuild, command_legal hl (operandLegal_zero rfl rfl), if_neg hn]
  simp only [hpq]

/-- GENCODE of the tree of a call completes (R171, R174). -/
theorem exec_gencode (hp : s.phase = .htree) (hs : s.Call .htree) :
    ∃ code, exec (.gencode 0) s = .next { s with code := code, phase := .hcode } := by
  have hl : legalIn s.phase (.gencode 0) = true := by simp [legalIn, hp]
  obtain ⟨T, hrep, hsize, -⟩ := (hs.built_self (.inl rfl)).tree
  have hcode : codeTable s.node s.root s.nnodes s.code = some (writeAll s.code T.codes) :=
    codeTable_spec hrep hsize
  refine ⟨writeAll s.code T.codes, ?_⟩
  rw [exec, execGencode, command_legal hl (operandLegal_zero rfl rfl)]
  simp only [hcode]

/-! ## The codes of a call -/

/-- CODE holds the codes of the tree in NODE (R44 items 5 and 6). -/
theorem State.Call.codesOf (h : s.Call .hcode) : ∃ T, Rep s.node s.root T ∧ CodesOf s T s.code := by
  obtain ⟨T, hrep, hsize, hleaves, -⟩ := (h.built_self (.inr rfl)).tree
  have hcode : some s.code = some (writeAll [] T.codes) :=
    (h.table rfl).symm.trans (codeTable_spec hrep hsize)
  injection hcode with hcode
  exact ⟨T, hrep, hcode ▸ CodesOf.of_leaves hleaves⟩

theorem State.Call.codeAt_ne_nil_iff (h : s.Call .hcode) (b : Nat) : s.codeAt b ≠ [] ↔ b ∈ s.present :=
  let ⟨_, _, hcodes⟩ := h.codesOf
  hcodes.present b

/-- No code of a tree begins another symbol's, the one code of the one-leaf tree included. -/
theorem codes_prefix_free {node : Memory Node} {i b c : Nat} {T : HTree} {p q : Code} (h : Rep node i T)
    (hp : (b, p) ∈ T.codes) (hq : (c, q) ∈ T.codes) (hpq : p <+: q) : b = c := by
  cases T with
  | leaf f d =>
    have hb := congrArg Prod.fst (List.mem_singleton.1 hp)
    have hc := congrArg Prod.fst (List.mem_singleton.1 hq)
    exact hb.trans hc.symm
  | node l r => exact (paths_prefix_free h hp hq hpq).1

theorem State.Call.codeAt_prefix_free (h : s.Call .hcode) {b c : Nat} (hb : s.codeAt b ≠ [])
    (hc : s.codeAt c ≠ []) (hbc : s.codeAt b <+: s.codeAt c) : b = c :=
  let ⟨_, hrep, hcodes⟩ := h.codesOf
  codes_prefix_free hrep ((hcodes.mem b _ hb).1 rfl) ((hcodes.mem c _ hc).1 rfl) hbc

/-- Where every symbol has a code and none begins another's, the concatenated codes determine the text
(R193). -/
theorem eq_of_flatMap_code {α : Type} {code : α → Code} (x y : List α)
    (hx : ∀ a ∈ x, code a ≠ []) (hy : ∀ a ∈ y, code a ≠ [])
    (hfree : ∀ a b, code a ≠ [] → code b ≠ [] → code a <+: code b → a = b)
    (h : y.flatMap code = x.flatMap code) : y = x := by
  induction x generalizing y with
  | nil =>
    cases y with
    | nil => rfl
    | cons b y =>
      rw [List.flatMap_cons, List.flatMap_nil, List.append_eq_nil_iff] at h
      exact absurd h.1 (hy b (by simp))
  | cons a x ih =>
    have ha := hx a (by simp)
    cases y with
    | nil =>
      rw [List.flatMap_cons, List.flatMap_nil, eq_comm, List.append_eq_nil_iff] at h
      exact absurd h.1 ha
    | cons b y =>
      have hb := hy b (by simp)
      rw [List.flatMap_cons, List.flatMap_cons] at h
      have hba : b = a := by
        rcases List.prefix_or_prefix_of_prefix (h ▸ List.prefix_append _ _) (List.prefix_append _ _) with
          hpre | hpre
        · exact hfree b a hb ha hpre
        · exact (hfree a b ha hb hpre).symm
      subst hba
      rw [ih y (fun c hc => hx c (by simp [hc])) (fun c hc => hy c (by simp [hc]))
        (List.append_cancel_left h)]

/-! ## Emitting -/

theorem exec_emit (hp : s.phase = .hcode) (ha : a.toNat < s.par.nsym) (hc : s.codeAt a.toNat ≠ []) :
    exec (.emit a) s = .next (s.append (codeText (s.codeAt a.toNat))) := by
  have hl : legalIn s.phase (.emit a) = true := by simp [legalIn, hp]
  rw [exec, execEmit, command_legal hl (operandLegal_symbol rfl ha)]
  simp [symbolOf, hc]

/-- Emitting a text whose symbols have codes appends the codes in order and changes nothing else. -/
theorem execAll_emit (hp : s.phase = .hcode)
    (hx : ∀ a ∈ x, a.toNat < s.par.nsym ∧ s.codeAt a.toNat ≠ []) :
    execAll (x.map .emit) s = .next (s.append (x.flatMap fun a => codeText (s.codeAt a.toNat))) := by
  induction x generalizing s with
  | nil => simp [execAll, State.append]
  | cons a x ih =>
    obtain ⟨ha, hc⟩ := hx a (by simp)
    rw [List.map_cons, execAll_cons (exec_emit hp ha hc)]
    refine (ih (s := s.append _) hp fun c hc => hx c (by simp [hc])).trans ?_
    simp [State.append, State.codeAt]

/-- The concatenated codes as text, and as bits. -/
theorem flatMap_codeText (code : Opd → Code) (x : List Opd) :
    (x.flatMap fun a => codeText (code a)) = (x.flatMap code).map charOfBit := by
  simp [codeText, List.map_flatMap]

theorem charOfBit_injective : Function.Injective charOfBit := by decide

/-- Summing over a text is summing over its symbols, each as often as it occurs. -/
theorem sum_text (l p : List Nat) (hp : p.Nodup) (hmem : ∀ b, b ∈ p ↔ b ∈ l) (f : Nat → Nat) :
    (l.map f).sum = (p.map fun b => l.count b * f b).sum := by
  have hset : l.toFinset = p.toFinset := by
    ext b
    simp [hmem]
  rw [Finset.sum_list_map_count, hset, List.sum_toFinset _ hp]
  simp only [smul_eq_mul]

/-! ## The call -/

/-- The call up to GENCODE: it completes in HCODE, FREQ counts the occurrences in the text, and OUT is
still empty (R190). -/
theorem execAll_prepare (hlegal : s.par.Legal) (hne : x ≠ []) (hx : ∀ a ∈ x, a.toNat < s.par.nsym)
    (hlen : x.length ≤ s.par.cntmax) :
    ∃ t, execAll ([.clear 0] ++ x.map .count ++ [.build 0, .gencode 0]) s = .next t ∧
      t.phase = .hcode ∧ t.Call .hcode ∧ t.par = s.par ∧ t.out = [] ∧
      ∀ b, t.freqAt b = (x.map BitVec.toNat).count b := by
  have hclear : s.clear.Inv :=
    (State.Inv.resetWith hlegal).withHost (inputs := s.inputs) (response := s.response) (arg := 0)
  obtain ⟨u, hcount, huinv, hup, hupar, hufreq⟩ := execAll_count hclear (.inl rfl) hx
    (by simpa using hlen)
  have hfreq : ∀ b, u.freqAt b = (x.map BitVec.toNat).count b := fun b => (hufreq b).trans (Nat.zero_add _)
  have hucall := (huinv.call (by rcases hup with hup | hup <;> simp [hup])).1
  have hpres : u.present ≠ [] := by
    obtain ⟨a, ha⟩ := List.exists_mem_of_ne_nil x hne
    have hpos : 0 < u.freqAt a.toNat := hfreq a.toNat ▸ List.count_pos_iff.2 (List.mem_map_of_mem ha)
    exact List.ne_nil_of_mem (State.mem_present.2 ⟨hupar ▸ hx a ha, hpos.ne'⟩)
  have hns : u.nsyms ≠ 0 := by
    rw [hucall.nsyms_eq]
    exact (List.length_pos_of_ne_nil hpres).ne'
  obtain ⟨v, hbuild, hbuilt⟩ := exec_build_built hup hns hpres
  have hvp : v.phase = .htree := congrArg State.phase hbuilt.upd
  have hvcall : v.Call .htree := hvp ▸ ((huinv.exec hbuild).call (by simp [hvp])).1
  obtain ⟨code, hgen⟩ := exec_gencode hvp hvcall
  refine ⟨_, ?_, rfl, (((huinv.exec hbuild).exec hgen).call (by simp)).1, ?_, ?_, fun b => ?_⟩
  · rw [List.append_assoc, List.singleton_append, execAll_cons (exec_clear s), execAll_append hcount,
      execAll_cons hbuild, execAll_cons hgen]
    rfl
  · exact (exec_par hbuild).trans hupar
  · exact hvcall.silent (by simp)
  · have hvfreq : v.freq = u.freq := by rw [hbuilt.upd]
    exact (congrArg (Memory.read 0 b) hvfreq).trans (hfreq b)

/-- Settles O46: every symbol of the text was counted, so it has a code; no code begins another, so OUT
determines the text. -/
theorem huffmanCallIsDecodable : Obligations.HuffmanCallIsDecodable := by
  intro s x hlegal hne hx hlen
  obtain ⟨t, hprep, htp, hcall, hpar, hout, hfreq⟩ := execAll_prepare hlegal hne hx hlen
  have hpresent : ∀ b, b ∈ t.present ↔ b ∈ x.map BitVec.toNat := fun b => by
    rw [State.mem_present, hfreq b, hpar, ← Nat.pos_iff_ne_zero, List.count_pos_iff]
    refine and_iff_right_of_imp fun hb => ?_
    obtain ⟨a, ha, rfl⟩ := List.mem_map.1 hb
    exact hx a ha
  have hcode : ∀ a ∈ x, t.codeAt a.toNat ≠ [] := fun a ha =>
    (hcall.codeAt_ne_nil_iff _).2 ((hpresent _).2 (List.mem_map_of_mem ha))
  have hemit := execAll_emit htp fun a ha => ⟨hpar ▸ hx a ha, hcode a ha⟩
  have hbits := flatMap_codeText (fun a => t.codeAt a.toNat)
  refine ⟨_, (execAll_append hprep).trans hemit, htp, by rw [State.append_out, hout]; rfl, ?_, ?_, ?_⟩
  · intro c hc
    rw [State.append_out, hout, List.nil_append, hbits x] at hc
    obtain ⟨b, -, rfl⟩ := List.mem_map.1 hc
    cases b
    · exact .inl rfl
    · exact .inr rfl
  · rw [State.append_out, hout, List.nil_append, hbits x, List.length_map, List.length_flatMap]
    have hsum := sum_text _ _ t.present_nodup hpresent fun b => (t.codeAt b).length
    simp only [← hfreq, List.map_map] at hsum
    exact hsum
  · intro y hy h
    rw [State.append_out, hout, List.nil_append, hbits x] at h
    refine eq_of_flatMap_code x y hcode hy (fun a b ha hb hab => ?_)
      (charOfBit_injective.list_map ((hbits y).symm.trans h))
    exact BitVec.eq_of_toNat_eq (hcall.codeAt_prefix_free ha hb hab)

end Sys2Proof.Machine
end

section
/-!
PROOFS. The commands of the frequency table: COUNT, LOADF and RDFREQ with their failures, the order of
counting, and the bounds on the counts (40_frequency.md R121 to R124).
-/

namespace Sys2Proof.Machine

variable {s t : State} {a b : Opd}

theorem not_fault_of_beforeBuild (hp : s.phase = .idle ∨ s.phase = .hcount) : s.phase ≠ .fault := by
  rcases hp with hp | hp <;> simp [hp]

/-! ## COUNT -/

/-- `s` after one more occurrence of symbol `a` (R121). -/
def State.addOccurrence (a : Nat) (s : State) : State :=
  { s with
    nsyms := if s.freqAt a = 0 then s.nsyms + 1 else s.nsyms
    freq := Memory.write 0 a (s.freqAt a + 1) s.freq
    total := s.total + 1
    phase := .hcount }

@[simp] theorem State.addOccurrence_freq (a : Nat) (s : State) :
    (s.addOccurrence a).freq = Memory.write 0 a (s.freqAt a + 1) s.freq := rfl

@[simp] theorem State.addOccurrence_nsyms (a : Nat) (s : State) :
    (s.addOccurrence a).nsyms = if s.freqAt a = 0 then s.nsyms + 1 else s.nsyms := rfl

theorem State.freqAt_addOccurrence_same (a : Nat) (s : State) :
    (s.addOccurrence a).freqAt a = s.freqAt a + 1 := by
  rw [freqAt, addOccurrence_freq, Memory.read_write_same]

theorem State.freqAt_addOccurrence_other {a b : Nat} (h : a ≠ b) (s : State) :
    (s.addOccurrence a).freqAt b = s.freqAt b := by
  rw [freqAt, addOccurrence_freq, Memory.read_write_other h, freqAt]

/-- COUNT of a legal symbol in a legal phase overflows or adds one occurrence (R121). -/
theorem exec_count_legal (hp : s.phase = .idle ∨ s.phase = .hcount) (ha : a.toNat < s.par.nsym) :
    exec (.count a) s = if s.total = s.par.cntmax then raiseFail .countOverflow (.count a) s
      else .next (s.addOccurrence a.toNat) := by
  have hl : legalIn s.phase (.count a) = true := by simpa [legalIn] using hp
  rw [exec, execCount, command_legal hl (operandLegal_symbol rfl ha)]
  rfl

/-- Settles O27: the two outcomes of the command's own test, and the shared tests of phase and operand. -/
theorem countAddsOneOccurrence : Obligations.CountAddsOneOccurrence := by
  refine fun s a hf => ⟨fun ha hp ht => ?_, fun ha hp ht => ?_, fun ha hi hh => ?_, fun ha => ?_⟩
  · exact ⟨s.addOccurrence a.toNat, by rw [exec_count_legal hp ha, if_neg ht],
      s.freqAt_addOccurrence_same _, fun b hb => s.freqAt_addOccurrence_other hb.symm, rfl⟩
  · rw [exec_count_legal hp ha, if_pos ht]
    rfl
  · exact exec_illegalPhase hf (decide_eq_true ha) (by simp [legalIn, hi, hh])
  · exact exec_illegalOperand hf (decide_eq_false ha.not_gt)

/-! ## The order of counting -/

/-- In a canonical memory, writes to two addresses commute. -/
theorem Memory.write_comm {α : Type} [DecidableEq α] {d v w : α} {a b : Nat} {m : Memory α}
    (hm : wf d m = true) (hab : a ≠ b) : write d a v (write d b w m) = write d b w (write d a v m) := by
  refine ext_of_wf (wf_write (wf_write hm)) (wf_write (wf_write hm)) fun c => ?_
  simp only [read_write]
  by_cases ha : a = c
  · have hb : b ≠ c := fun hb => hab (ha.trans hb.symm)
    simp only [if_pos ha, if_neg hb]
  · simp only [if_neg ha]

theorem State.addOccurrence_comm (hs : Memory.wf 0 s.freq = true) (a b : Nat) :
    (s.addOccurrence a).addOccurrence b = (s.addOccurrence b).addOccurrence a := by
  by_cases hab : a = b
  · rw [hab]
  have hb := s.freqAt_addOccurrence_other hab
  have ha := s.freqAt_addOccurrence_other (Ne.symm hab)
  have hfreq : ((s.addOccurrence a).addOccurrence b).freq = ((s.addOccurrence b).addOccurrence a).freq := by
    simp only [addOccurrence_freq, ha, hb]
    exact Memory.write_comm hs (Ne.symm hab)
  have hnsyms : ((s.addOccurrence a).addOccurrence b).nsyms =
      ((s.addOccurrence b).addOccurrence a).nsyms := by
    simp only [addOccurrence_nsyms, ha, hb]
    split_ifs <;> rfl
  calc (s.addOccurrence a).addOccurrence b
      = { (s.addOccurrence b).addOccurrence a with
          freq := ((s.addOccurrence a).addOccurrence b).freq
          nsyms := ((s.addOccurrence a).addOccurrence b).nsyms } := rfl
    _ = (s.addOccurrence b).addOccurrence a := by rw [hfreq, hnsyms]

/-- COUNT that does not end in FAULT adds one occurrence. -/
theorem exec_count_next (h : exec (.count a) s = .next t) (ht : t.phase ≠ .fault) :
    s.phase ≠ .fault ∧ t = s.addOccurrence a.toNat := by
  rcases execCount_next h with hun | ⟨hp, -, -, he⟩
  · exact absurd hun.phase_eq ht
  · exact ⟨not_fault_of_beforeBuild hp, he⟩

theorem execAll_count_count (h : execAll [.count a, .count b] s = .next t) (ht : t.phase ≠ .fault) :
    t = (s.addOccurrence a.toNat).addOccurrence b.toNat := by
  obtain ⟨u, ha, h⟩ := execAll_cons_next h
  obtain ⟨v, hb, h⟩ := execAll_cons_next h
  injection h with h
  subst h
  obtain ⟨hu, rfl⟩ := exec_count_next hb ht
  rw [(exec_count_next ha hu).2]

/-- Settles O28: two occurrences are added in either order, and writes to FREQ commute. -/
theorem countingOrderIsIrrelevant : Obligations.CountingOrderIsIrrelevant := by
  intro s a b t u hs hab hba ht hu
  rw [execAll_count_count hab (by simp [ht]), execAll_count_count hba (by simp [hu]),
    State.addOccurrence_comm hs.freq_wf]

/-! ## LOADF -/

theorem entryCount_eq (n : Nat) : entryCount n = if n ≠ 0 then 1 else 0 := by
  rw [entryCount, ite_not]

/-- LOADF of a legal symbol and a count of CNTW bits, in a legal phase, overflows or sets the entry
(R123). -/
theorem exec_loadf_legal (hp : s.phase = .idle ∨ s.phase = .hcount) (ha : a.toNat < s.par.nsym)
    (harg : s.arg.toNat < 2 ^ s.par.cntw) :
    exec (.loadf a) s =
      if s.par.cntmax < s.total - s.freqAt a.toNat + s.arg.toNat then raiseFail .countOverflow (.loadf a) s
      else .next { s with
        freq := Memory.write 0 a.toNat s.arg.toNat s.freq
        total := s.total - s.freqAt a.toNat + s.arg.toNat
        nsyms := s.nsyms - entryCount (s.freqAt a.toNat) + entryCount s.arg.toNat
        phase := .hcount } := by
  have hl : legalIn s.phase (.loadf a) = true := by simpa [legalIn] using hp
  rw [exec, execLoadf, command_legal hl (operandLegal_symbol rfl ha), countArg_eq, if_neg harg.not_ge]
  rfl

/-- Settles O29: the two tests of the command itself, its effect, and the shared tests of phase and
operand. -/
theorem loadfSetsEntry : Obligations.LoadfSetsEntry := by
  refine fun s a hf => ⟨fun ha hp => ⟨exec_loadf_wideArg hp ha, fun harg _ _ => ⟨fun ht => ?_, fun ht => ?_⟩⟩,
    fun ha hi hh => ?_, fun ha => ?_⟩
  · rw [exec_loadf_legal hp ha harg, if_pos ht]
    rfl
  · have hexec := exec_loadf_legal hp ha harg
    rw [if_neg ht.not_gt, entryCount_eq, entryCount_eq] at hexec
    exact ⟨_, hexec, Memory.read_write_same, fun b hb => Memory.read_write_other hb.symm, rfl⟩
  · exact exec_illegalPhase hf (decide_eq_true ha) (by simp [legalIn, hi, hh])
  · exact exec_illegalOperand hf (decide_eq_false ha.not_gt)

/-! ## The bounds on the counts -/

/-- Settles O31: TOTAL is the sum of the counts, and NSYMS the number of symbols with a count. -/
theorem countsNeverWrap : Obligations.CountsNeverWrap := by
  intro s hs hp
  obtain ⟨hcall, -⟩ := hs.call (not_fault_of_beforeBuild hp)
  obtain ⟨-, ⟨hsum, -⟩, -⟩ := hcall.beforeBuild hp
  have hle : ∀ a, a < s.par.nsym → s.freqAt a ≤ s.total := fun a ha => hsum ▸ State.freqAt_le_freqSum ha
  have hmax := hcall.total_le
  exact ⟨hle, hmax, fun hne a ha => (Nat.succ_le_succ (hle a ha)).trans (hmax.lt_of_ne hne), hcall.nsyms_le⟩

/-! ## RDFREQ -/

/-- Settles O30: every phase but FAULT is legal, so only the symbol is tested. -/
theorem rdfreqReadsEntry : Obligations.RdfreqReadsEntry := by
  refine fun s a hf => ⟨fun ha => ?_, fun ha => exec_illegalOperand hf (decide_eq_false ha.not_gt)⟩
  have hl : legalIn s.phase (.rdfreq a) = true := by simpa [legalIn] using hf
  rw [exec, execRdfreq, command_legal hl (operandLegal_symbol rfl ha)]
  rfl

end Sys2Proof.Machine
end

section
/-!
PROOFS. BUILD and RDNODE: the order of popmin, the tree BUILD leaves and its shape, and the read-back of a
record with its failures (41_tree_builder.md R141 to R152).
-/

namespace Sys2Proof.Machine

variable {node : Memory Node} {s t : State} {x : Opd} {L k m j : Nat}

/-! ## The priority order -/

/-- Settles O35: popmin's least index comes before every other index of the queue. -/
theorem popminTakesTheLeast : Obligations.PopminTakesTheLeast := by
  refine fun node pq => ⟨fun h => by rw [h]; rfl, fun h => ?_⟩
  obtain ⟨m, hm, hpop, hleast⟩ := popmin_spec (node := node) h
  exact ⟨m, hpop, hm, fun j hj hne => before_iff.1 (hleast j hj hne)⟩

theorem freq_le_of_before {i : Nat} (h : before node i j = true) :
    (Memory.read Node.zero i node).freq ≤ (Memory.read Node.zero j node).freq := by
  rcases before_iff.1 h with hlt | ⟨heq, -⟩
  · exact hlt.le
  · exact heq.le

/-! ## Parents and children -/

/-- Node `j` is a child of node `m`. -/
def Child (node : Memory Node) (m j : Nat) : Prop :=
  (Memory.read Node.zero m node).left = j ∨ (Memory.read Node.zero m node).right = j

/-- A node is free as long as it is no child. -/
theorem free_iff : Free node L k j ↔ j < k ∧ ∀ m, L ≤ m → m < k → ¬Child node m j := by
  simp only [Free, Child, not_or]

theorem exists_parent_of_not_free (hj : j < k) (h : ¬Free node L k j) :
    ∃ m, L ≤ m ∧ m < k ∧ Child node m j := by
  by_contra hno
  exact h (free_iff.2 ⟨hj, fun m hL hm hc => hno ⟨m, hL, hm, hc⟩⟩)

/-- A merge takes its children from the nodes free before it (R145). -/
theorem Merged.free_of_child (h : Merged node L k) (hc : Child node k j) : Free node L k j := by
  obtain ⟨a, b, -, ha, hb, -, -, hrec⟩ := h
  rw [Child, hrec] at hc
  rcases hc with rfl | rfl
  · exact ha
  · exact hb

/-- Of two merges the later one cannot take a child of the earlier one. -/
theorem Merged.parent_le (hk : Merged node L k) (hL : L ≤ m) (hm : Child node m j) (hc : Child node k j) :
    k ≤ m := by
  by_contra hlt
  exact (free_iff.1 (hk.free_of_child hc)).2 m hL (Nat.lt_of_not_le hlt) hm

/-- A node other than `k` that is free after merge `k` was free before it and was not merged. -/
theorem Free.of_succ (h : Free node L (k + 1) j) (hL : L ≤ k) (hne : j ≠ k) :
    Free node L k j ∧ ¬Child node k j := by
  obtain ⟨hj, hfree⟩ := free_iff.1 h
  exact ⟨free_iff.2 ⟨by omega, fun m hm hlt => hfree m hm (by omega)⟩, hfree k hL (by omega)⟩

/-! ## Growing frequencies -/

/-- The merge after `k` either takes `k` itself, or takes two nodes that merge `k` passed over
(R150 item 7). -/
theorem Merged.freq_le_succ (h : Merged node L k) (h' : Merged node L (k + 1)) (hL : L ≤ k) :
    (Memory.read Node.zero k node).freq ≤ (Memory.read Node.zero (k + 1) node).freq := by
  obtain ⟨c, d, -, hc, hd, -, -, hrec'⟩ := h'
  have hsum' := congrArg Node.freq hrec'
  by_cases hck : c = k
  · rw [hsum', hck]
    exact Nat.le_add_right _ _
  by_cases hdk : d = k
  · rw [hsum', hdk]
    exact Nat.le_add_left _ _
  obtain ⟨a, b, -, -, -, ha, hb, hrec⟩ := h
  have hpassed : ∀ e, Free node L k e ∧ ¬Child node k e → e ≠ a ∧ e ≠ b := fun e ⟨_, hno⟩ =>
    ⟨fun he => hno (.inl (by rw [hrec, he])), fun he => hno (.inr (by rw [hrec, he]))⟩
  have hc := hc.of_succ hL hck
  have hd := hd.of_succ hL hdk
  have hac := freq_le_of_before (ha c hc.1 (hpassed c hc).1)
  have hbd := freq_le_of_before (hb d hd.1 (hpassed d hd).1 (hpassed d hd).2)
  calc (Memory.read Node.zero k node).freq
      = (Memory.read Node.zero a node).freq + (Memory.read Node.zero b node).freq := congrArg Node.freq hrec
    _ ≤ (Memory.read Node.zero c node).freq + (Memory.read Node.zero d node).freq := Nat.add_le_add hac hbd
    _ = (Memory.read Node.zero (k + 1) node).freq := hsum'.symm

/-! ## BUILD -/

/-- BUILD that ends in HTREE has built the tree (R141). -/
theorem built_of_exec (h : exec (.build 0) s = .next t) (ht : t.phase = .htree) : Built s t := by
  rcases execBuild_next h with hun | ⟨r, rest, hpq, -, -, -, rfl⟩
  · cases hun.phase_eq.symm.trans ht
  · exact Built.of_pq hpq

/-- An internal node has two children below it and the sum of their frequencies (R145, R150 item 3). -/
theorem Built.merge_shape (h : Built s t) (hL : s.present.length ≤ k) (hk : k < t.nnodes) :
    (t.nodeAt k).leaf = false ∧ (t.nodeAt k).left < k ∧ (t.nodeAt k).right < k ∧
      (t.nodeAt k).left ≠ (t.nodeAt k).right ∧
      (t.nodeAt k).freq = (t.nodeAt (t.nodeAt k).left).freq + (t.nodeAt (t.nodeAt k).right).freq := by
  obtain ⟨a, b, hab, ha, hb, -, -, hrec⟩ := h.merged k hL hk
  rw [show t.nodeAt k = _ from hrec]
  exact ⟨rfl, ha.1, hb.1, hab, rfl⟩

/-- Every node below the root is the child of exactly one internal node (R150 item 4). -/
theorem Built.existsUnique_parent (h : Built s t) (hj : j < t.root) :
    ∃! k, s.present.length ≤ k ∧ k < t.nnodes ∧ Child t.node k j := by
  have hroot := h.root
  obtain ⟨k, hL, hk, hc⟩ := exists_parent_of_not_free (by omega) fun hf => hj.ne ((h.free j).1 hf)
  refine ⟨k, ⟨hL, hk, hc⟩, fun m ⟨hL', hm, hc'⟩ => ?_⟩
  exact le_antisymm ((h.merged m hL' hm).parent_le hL hc hc') ((h.merged k hL hk).parent_le hL' hc' hc)

/-- Settles O32: in a legal phase BUILD tests NSYMS before it does anything else. -/
theorem buildOfEmptyTableFails : Obligations.BuildOfEmptyTableFails := fun _ => exec_build_empty

/-- Settles O33: the queue ends with one index, that of the last node. -/
theorem buildEndsWithOneRoot : Obligations.BuildEndsWithOneRoot := by
  intro s hp hn hpres
  obtain ⟨t, hexec, hb⟩ := exec_build_built hp hn hpres
  exact ⟨t, hexec, hb.count, hb.root, hb.old, hb.upd⟩

/-- Settles O34: the leaf loop numbers the present symbols in order, and every later node is a merge. -/
theorem leavesAreInSymbolOrder : Obligations.LeavesAreInSymbolOrder := by
  intro s t h ht
  have hb := built_of_exec h ht
  exact ⟨s.present_sorted, fun _ => State.mem_present, hb.leaf, fun k hL hk => (hb.merge_shape hL hk).1⟩

/-- Settles O36: the queue holds the free nodes, and the two of them that popmin takes are the least. -/
theorem mergesJoinTheTwoLeast : Obligations.MergesJoinTheTwoLeast := by
  intro s t h ht k hL hk
  obtain ⟨a, b, hab, ha, hb, hleast, hnext, hrec⟩ := (built_of_exec h ht).merged k hL hk
  exact ⟨a, b, hab, ha, hb, fun j hj hja => before_iff.1 (hleast j hj hja),
    fun j hj hja hjb => before_iff.1 (hnext j hj hja hjb), hrec⟩

/-- Settles O37: with L = 1 there are 2·L − 1 = 1 nodes, and node 0 is the leaf. -/
theorem oneEntryGivesOneLeaf : Obligations.OneEntryGivesOneLeaf := by
  intro s a hp hn hpres
  obtain ⟨t, hexec, hb⟩ := exec_build_built hp hn (by simp [hpres])
  have hone : t.nnodes = 1 := by
    have hcount := hb.count
    rw [hpres, List.length_singleton] at hcount
    omega
  have hroot : t.root = 0 := by
    have hroot := hb.root
    omega
  have hleaf := hb.leaf 0 (by simp [hpres])
  simp only [hpres, List.getElem_cons_zero] at hleaf
  exact ⟨t, hexec, hroot, hone, by rw [State.degenFlag, hone]; rfl, hleaf⟩

/-- Settles O38: merges take free nodes, so children lie below and have one parent each; a merge passes
over nothing less than what it takes, so the sums grow. -/
theorem builtTreeIsATree : Obligations.BuiltTreeIsATree := by
  intro s t h ht
  have hb := built_of_exec h ht
  exact ⟨fun k hL hk => (hb.merge_shape hL hk).2, fun j hj => hb.existsUnique_parent hj, hb.freq_root,
    fun k hL hk => (hb.merged k hL (by omega)).freq_le_succ (hb.merged (k + 1) (by omega) hk) hL⟩

/-! ## RDNODE -/

/-- RDNODE in a legal phase fails or reads the record; every operand of format N is legal (R91, R152). -/
theorem exec_rdnode_legal (hp : s.phase = .htree ∨ s.phase = .hcode) :
    exec (.rdnode x) s = if s.nnodes ≤ x.toNat then raiseFail .badIndex (.rdnode x) s
      else .next { s with
        res0 := zext32 (s.nodeAt x.toNat).freq
        res1 := (s.nodeAt x.toNat).res1
        res2 := (s.nodeAt x.toNat).res2 } := by
  have hl : legalIn s.phase (.rdnode x) = true := by simpa [legalIn] using hp
  rw [exec, execRdnode, command_legal hl rfl]
  rfl

/-- Settles O39: RDNODE's own test of the index, and the shared test of the phase. -/
theorem rdnodeReadsRecord : Obligations.RdnodeReadsRecord := by
  refine fun s x hf => ⟨fun hp => ⟨fun hx => ?_, fun hx => ?_⟩, fun hh hc => ?_⟩
  · rw [exec_rdnode_legal hp, if_neg hx.not_ge]
    rfl
  · rw [exec_rdnode_legal hp, if_pos hx]
    rfl
  · exact exec_illegalPhase hf rfl (by simp [legalIn, hh, hc])

end Sys2Proof.Machine
end

section
/-!
PROOFS. GENCODE and RDCODE: the codes as paths of the tree, the one-leaf tree, the items of R175, and the
read-back of a code word (42_code_table.md R171 to R176).
-/

namespace Sys2Proof.Machine

variable {node : Memory Node} {s t : State} {T T' : HTree} {c : Memory Code} {a : Opd} {i : Nat}

/-! ## GENCODE -/

theorem State.Inv.call_of_phase {p : Phase} (hs : s.Inv) (hp : s.phase = p) (hf : p ≠ .fault) : s.Call p :=
  hp ▸ (hs.call (hp ▸ hf)).1

/-- GENCODE of the tree of a call completes, and CODE then holds the codes of that tree (R171, R172). -/
theorem exec_gencode_codesOf (hs : s.Inv) (hp : s.phase = .htree) :
    ∃ t T, exec (.gencode 0) s = .next t ∧ t = { s with code := t.code, phase := .hcode } ∧
      Rep s.node s.root T ∧ CodesOf s T t.code := by
  obtain ⟨code, hexec⟩ := exec_gencode hp (hs.call_of_phase hp (by decide))
  obtain ⟨T, hrep, hcodes⟩ := ((hs.exec hexec).call_of_phase (p := .hcode) rfl (by decide)).codesOf
  exact ⟨_, T, hexec, rfl, hrep, hcodes.mem, hcodes.present, hcodes.perm⟩

/-- The tree has as many leaves as the table has symbols. -/
theorem CodesOf.leaves_length (h : CodesOf s T c) : T.leaves.length = s.present.length := by
  simpa [HTree.codes_fst] using h.perm.length_eq

/-- Settles O40: with two leaves or more the codes are the paths, and a path is what leads to a leaf. -/
theorem gencodeWritesPaths : Obligations.GencodeWritesPaths := by
  intro s hs hp hn
  obtain ⟨t, T, hexec, hupd, hrep, hcodes⟩ := exec_gencode_codesOf hs hp
  have hlen : 2 ≤ T.leaves.length := by
    rwa [hcodes.leaves_length, ← (hs.call_of_phase hp (by decide)).nsyms_eq]
  refine ⟨t, hexec, fun b p hne => ?_, hcodes.present, hupd⟩
  calc t.codeAt b = p ↔ (b, p) ∈ T.codes := hcodes.mem b p hne
    _ ↔ (b, p) ∈ T.paths := by rw [HTree.codes_eq_paths hlen]
    _ ↔ _ := mem_paths_iff hrep

/-- A tree of one leaf gives its symbol the code "0" and no other code (R173). -/
theorem HTree.codes_of_length_one (h : T.leaves.length = 1) : ∃ b, T.codes = [(b, [false])] := by
  cases T with
  | leaf f b => exact ⟨b, rfl⟩
  | node l r =>
    have hl := l.leaves_pos
    have hr := r.leaves_pos
    rw [HTree.leaves, List.length_append] at h
    omega

/-- Settles O41: the tree of a one-entry table is one leaf. -/
theorem onlySymbolGetsCodeZero : Obligations.OnlySymbolGetsCodeZero := by
  intro s hs hp hn
  obtain ⟨t, T, hexec, hupd, -, hcodes⟩ := exec_gencode_codesOf hs hp
  have hlen : T.leaves.length = 1 := by
    rw [hcodes.leaves_length, ← (hs.call_of_phase hp (by decide)).nsyms_eq, hn]
  obtain ⟨b, hb⟩ := HTree.codes_of_length_one hlen
  have hpres : s.present = [b] := by
    have hperm := hcodes.perm
    rw [hb] at hperm
    exact (List.singleton_perm.1 hperm).symm
  refine ⟨b, t, hpres, hexec, (hcodes.mem b _ (by simp)).2 (by simp [hb]), fun d hd => ?_, hupd⟩
  by_contra hne
  exact hd (by simpa [hpres] using (hcodes.present d).1 hne)

/-! ## The items of R175 -/

/-- No code has more than max(1, NSYMS − 1) bits (R175 item 2). -/
theorem State.Call.codeAt_length_le (h : s.Call .hcode) (b : Nat) :
    (s.codeAt b).length ≤ max 1 (s.nsyms - 1) := by
  obtain ⟨T, -, hcodes⟩ := h.codesOf
  by_cases hne : s.codeAt b = []
  · simp [hne]
  · rw [h.nsyms_eq, ← hcodes.leaves_length]
    exact T.codes_length _ ((hcodes.mem b _ hne).1 rfl)

/-- Settles O42: only the present symbols have codes, and no code begins another's. -/
theorem codesArePrefixFree : Obligations.CodesArePrefixFree := by
  intro s hs hp
  have hcall := hs.call_of_phase hp (by decide)
  refine ⟨fun b => (hcall.codeAt_ne_nil_iff b).trans State.mem_present,
    fun b => ⟨hcall.codeAt_length_le b, hcall.code_fits b⟩, fun b d hbd hb hpre => ?_⟩
  by_cases hd : s.codeAt d = []
  · exact hb (List.prefix_nil.1 (hd ▸ hpre))
  · exact hbd (hcall.codeAt_prefix_free hb hd hpre)

/-- A sum over the present symbols and their codes is the sum over the codes of the tree. -/
theorem CodesOf.sum_present {M : Type} [AddCommMonoid M] (h : CodesOf s T s.code) (g : Nat → Code → M) :
    (s.present.map fun b => g b (s.codeAt b)).sum = (T.codes.map fun e => g e.1 e.2).sum := by
  rw [← (h.perm.map _).sum_eq, List.map_map]
  refine congrArg List.sum (List.map_congr_left fun e he => ?_)
  have hcode : s.codeAt e.1 = e.2 := (h.mem e.1 e.2 (HTree.codes_ne_nil he)).2 he
  rw [Function.comp_apply, hcode]

/-- The Kraft sum of the codes: that of the paths, and 1/2 for the one code "0" (R175 item 4). -/
theorem HTree.kraft_codes (T : HTree) : (T.codes.map fun e => (1 / 2 : ℚ) ^ e.2.length).sum =
    if T.leaves.length = 1 then 1 / 2 else 1 := by
  cases T with
  | leaf f b => simp [HTree.codes, HTree.leaves]
  | node l r =>
    have hl := l.leaves_pos
    have hr := r.leaves_pos
    rw [if_neg (by rw [HTree.leaves, List.length_append]; omega)]
    exact HTree.kraft _

/-- `HTree.cost` with the leaf frequencies looked up by symbol (R175 item 5). -/
theorem HTree.cost_codes (h2 : 2 ≤ T.leaves.length) {f : Nat → Nat} (hf : ∀ e ∈ T.leaves, e.1 = f e.2) :
    (T.codes.map fun e => f e.1 * e.2.length).sum = T.inner := by
  have hfst : T.leaves.map Prod.fst = T.paths.map fun e => f e.1 :=
    calc T.leaves.map Prod.fst = (T.leaves.map Prod.snd).map f := by
          rw [List.map_map]; exact List.map_congr_left hf
      _ = T.paths.map fun e => f e.1 := by rw [← T.paths_fst, List.map_map]; rfl
  have hzip : (T.leaves.zip T.paths).map (fun e => e.1.1 * e.2.2.length) =
      List.zipWith (· * ·) (T.leaves.map Prod.fst) (T.paths.map fun e => e.2.length) := by
    rw [List.zipWith_map, List.zip_eq_zipWith, List.map_zipWith]
  rw [HTree.codes_eq_paths h2, ← T.cost, hzip, hfst, List.zipWith_map, List.zipWith_self]

/-- Leaves come first, so the internal nodes are those from the number of symbols on (R143, R145). -/
theorem Built.filter_internal (h : Built s t) :
    ((List.range t.nnodes).filter fun k => !(t.nodeAt k).leaf) =
      (List.range t.nnodes).drop s.present.length := by
  have hleaf : ((List.range t.nnodes).take s.present.length).filter (fun k => !(t.nodeAt k).leaf) = [] := by
    refine List.filter_eq_nil_iff.2 fun k hk => ?_
    rw [List.take_range, List.mem_range] at hk
    simp [h.leaf k (hk.trans_le (Nat.min_le_left _ _)), leafNode]
  have hinternal : ((List.range t.nnodes).drop s.present.length).filter (fun k => !(t.nodeAt k).leaf) =
      (List.range t.nnodes).drop s.present.length := by
    refine List.filter_eq_self.2 fun k hk => ?_
    have hn : k < t.nnodes := List.mem_range.1 (List.mem_of_mem_drop hk)
    have hL : s.present.length ≤ k := by
      rw [List.range_eq_range', List.drop_range', List.mem_range'_1] at hk
      omega
    simp [(h.merge_shape hL hn).1]
  rw [← List.take_append_drop s.present.length (List.range t.nnodes), List.filter_append, hleaf,
    List.nil_append, List.take_append_drop, hinternal]

/-- The records below a node are one tree only. -/
theorem Rep.unique (h : Rep node i T) (h' : Rep node i T') : T = T' := by
  induction h generalizing T' with
  | leaf h =>
    cases h' with
    | leaf h' =>
      have heq := h.symm.trans h'
      simp only [leafNode, Node.mk.injEq] at heq
      rw [heq.1, heq.2.2.1]
    | node h' => cases h.symm.trans h'
  | node h _ _ _ _ ihl ihr =>
    cases h' with
    | leaf h' => cases h.symm.trans h'
    | node h' _ _ hl hr =>
      have heq := h.symm.trans h'
      simp only [Node.mk.injEq] at heq
      obtain ⟨-, -, -, rfl, rfl⟩ := heq
      rw [ihl hl, ihr hr]

/-- The weighted sum of the code lengths is the sum of the internal frequencies (R175 item 5). -/
theorem State.Call.cost (h : s.Call .hcode) (hn : 2 ≤ s.nsyms) :
    (s.present.map fun b => s.freqAt b * (s.codeAt b).length).sum =
      (((List.range s.nnodes).filter fun k => !(s.nodeAt k).leaf).map fun k => (s.nodeAt k).freq).sum := by
  obtain ⟨T, hrep, hcodes⟩ := h.codesOf
  have hbuilt := h.built_self (.inr rfl)
  obtain ⟨T', hrep', -, hleaves, hinner⟩ := hbuilt.tree
  obtain rfl : T = T' := hrep.unique hrep'
  have hfreq : ∀ e ∈ T.leaves, e.1 = s.freqAt e.2 := by
    intro e he
    obtain ⟨b, -, rfl⟩ := List.mem_map.1 (hleaves.mem_iff.1 he)
    rfl
  have hlen : 2 ≤ T.leaves.length := by rwa [hcodes.leaves_length, ← h.nsyms_eq]
  have hinternal : ((List.range s.nnodes).filter fun k => !(s.nodeAt k).leaf) =
      (List.range s.nnodes).drop s.present.length := hbuilt.filter_internal
  calc (s.present.map fun b => s.freqAt b * (s.codeAt b).length).sum
      = (T.codes.map fun e => s.freqAt e.1 * e.2.length).sum :=
        hcodes.sum_present fun b p => s.freqAt b * p.length
    _ = T.inner := HTree.cost_codes hlen hfreq
    _ = (((List.range s.nnodes).drop s.present.length).map fun k => (s.nodeAt k).freq).sum := hinner
    _ = _ := by rw [hinternal]

/-- Settles O43: both sums over the present symbols are sums over the codes of the tree. -/
theorem kraftEqualityAndCost : Obligations.KraftEqualityAndCost := by
  intro s hs hp
  have hcall := hs.call_of_phase hp (by decide)
  obtain ⟨T, -, hcodes⟩ := hcall.codesOf
  refine ⟨?_, hcall.cost⟩
  rw [hcodes.sum_present fun _ p => (1 / 2 : ℚ) ^ p.length, T.kraft_codes, hcodes.leaves_length,
    hcall.nsyms_eq]

/-! ## RDCODE -/

/-- RDCODE of a symbol in HCODE fails or reads the word of the code that ARG names (R176). -/
theorem exec_rdcode_legal (hp : s.phase = .hcode) (ha : a.toNat < s.par.nsym) :
    exec (.rdcode a) s = if s.par.codewords ≤ s.arg.toNat then raiseFail .badIndex (.rdcode a) s
      else .next { s with
        res1 := zext32 (s.codeAt a.toNat).length
        res0 := codeWord s.par (s.codeAt a.toNat) s.arg.toNat } := by
  have hl : legalIn s.phase (.rdcode a) = true := by simp [legalIn, hp]
  rw [exec, execRdcode, command_legal hl (operandLegal_symbol rfl ha)]
  rfl

theorem codeWord_getLsbD (p : Params) (code : Code) (k : Nat) {j : Nat} (hj : j < 32) :
    (codeWord p code k).getLsbD j =
      (decide (32 * k + j < p.maxcode) && code.getD (32 * k + j) false) := by
  rw [codeWord, BitVec.getLsbD_ofNat, packBits_testBit]
  simp [hj, codeBit]

/-- Settles O44: RDCODE's own test of the word index, and the shared tests of phase and operand. -/
theorem rdcodeReadsWord : Obligations.RdcodeReadsWord := by
  refine fun s a hf => ⟨fun ha hp => ⟨fun harg => ?_, fun harg => ?_⟩, fun ha hp => ?_, fun ha => ?_⟩
  · rw [exec_rdcode_legal hp ha, if_neg harg.not_ge]
    exact ⟨_, rfl, fun j hj => codeWord_getLsbD _ _ _ hj, rfl⟩
  · rw [exec_rdcode_legal hp ha, if_pos harg]
    rfl
  · exact exec_illegalPhase hf (decide_eq_true ha) (by simp [legalIn, hp])
  · exact exec_illegalOperand hf (decide_eq_false ha.not_gt)

end Sys2Proof.Machine
end

section
/-!
PROOFS. EMIT (43_huffman_emit.md R191, R192). The completing case is `exec_emit`.
-/

namespace Sys2Proof.Machine

variable {s : State} {a : Opd}

/-- EMIT of a symbol without a code fails (R192). -/
theorem exec_emit_noCode (hp : s.phase = .hcode) (ha : a.toNat < s.par.nsym)
    (hc : s.codeAt a.toNat = []) : exec (.emit a) s = raiseFail .noCode (.emit a) s := by
  have hl : legalIn s.phase (.emit a) = true := by simp [legalIn, hp]
  rw [exec, execEmit, command_legal hl (operandLegal_symbol rfl ha)]
  simp [symbolOf, hc]

/-- Settles O45: EMIT's own test of the code, and the shared tests of phase and operand. -/
theorem emitAppendsCode : Obligations.EmitAppendsCode := by
  refine fun s a hf => ⟨fun ha hp => ⟨fun hc => ?_, fun hc => ?_⟩, fun ha hp => ?_, fun ha => ?_⟩
  · exact exec_emit hp ha hc
  · exact exec_emit_noCode hp ha hc
  · exact exec_illegalPhase hf (decide_eq_true ha) (by simp [legalIn, hp])
  · exact exec_illegalOperand hf (decide_eq_false ha.not_gt)

end Sys2Proof.Machine
end

section
/-!
PROOFS. RLEPUT and RLEEND one command at a time (44_rle.md R202 to R204), the decimal spelling of a count
(R205), and reading an input back from OUT (R206, R207).
-/

namespace Sys2Proof.Machine

variable {s t : State} {a : Opd} {x : List Opd}

/-! ## One command -/

/-- Appending a token, in the pseudocode's form (R202, R203). -/
theorem State.append_runToken (sym cnt : Nat) (s : State) :
    s.append (runToken sym cnt) = { s with out := s.out ++ [sym] ++ dec cnt } := by
  simp [State.append, runToken]

/-- RLEPUT of a symbol in IDLE or RLERUN is its pseudocode (R202). -/
theorem exec_rleput_legal (hp : s.phase = .idle ∨ s.phase = .rlerun) (ha : a.toNat < s.par.nsym) :
    exec (.rleput a) s =
      if s.total = s.par.cntmax then raiseFail .countOverflow (.rleput a) s
      else if s.runv = false then
        .next { s with rlesym := a.toNat, rlecnt := 1, runv := true, total := s.total + 1, phase := .rlerun }
      else if a.toNat = s.rlesym then
        .next { s with rlecnt := s.rlecnt + 1, total := s.total + 1, phase := .rlerun }
      else
        .next { s.append (runToken s.rlesym s.rlecnt) with
                rlesym := a.toNat, rlecnt := 1, total := s.total + 1, phase := .rlerun } := by
  have hl : legalIn s.phase (.rleput a) = true := by simpa [legalIn] using hp
  rw [exec, execRleput, command_legal hl (operandLegal_symbol rfl ha)]
  rfl

/-- Settles O47: the branches of RLEPUT's own rule, and the shared tests of phase and operand. -/
theorem rleputFeedsSymbol : Obligations.RleputFeedsSymbol := by
  refine fun s a hf => ⟨fun ha hp => ?_, fun ha hi hr => ?_, fun ha => ?_⟩
  · rw [exec_rleput_legal hp ha]
    refine ⟨fun htot => ?_, fun htot => ⟨fun hrun => ?_, fun hrun heq => ?_, fun hrun hne => ?_⟩⟩
    · rw [if_pos htot]
      rfl
    · rw [if_neg htot, if_pos hrun]
    · rw [if_neg htot, if_neg (by simp [hrun]), if_pos heq]
    · rw [if_neg htot, if_neg (by simp [hrun]), if_neg hne, State.append_runToken]
  · exact exec_illegalPhase hf (decide_eq_true ha) (by simp [legalIn, hi, hr])
  · exact exec_illegalOperand hf (decide_eq_false ha.not_gt)

/-- Settles O48: RLEEND with and without an open run, and the shared tests of phase and operand. -/
theorem rleendFlushesLastRun : Obligations.RleendFlushesLastRun := by
  refine fun s hf => ⟨fun hp => ⟨fun hrun => ?_, fun hrun => ?_⟩, fun hi hr => ?_, fun opd ho => ?_⟩
  · rw [exec_rleend_run hp hrun, State.append_runToken]
  · exact exec_rleend_empty hp hrun
  · exact exec_illegalPhase hf rfl (by simp [legalIn, hi, hr])
  · exact exec_illegalOperand hf (by simpa [Instr.wellFormed] using ho)

/-! ## The spelling of a count -/

theorem dec_length_le {n k : Nat} (h : n < 10 ^ (k + 1)) : (dec n).length ≤ k + 1 :=
  decLoop_length_le _ _ [] k h

/-- A spelling of m digits is of a number below 10^m. -/
theorem lt_ten_pow_dec_length (n : Nat) : n < 10 ^ (dec n).length := by
  obtain ⟨-, hdigits, -, hvalue⟩ := dec_spec n
  simpa only [hvalue] using decValue_lt (dec n) hdigits

/-- Settles O49: `dec_spec`, and the length from the bounds that a number and its spelling set on each
other. -/
theorem decSpellsCount : Obligations.DecSpellsCount := by
  intro a n hn
  obtain ⟨hne, hdigits, hhead, hvalue⟩ := dec_spec n
  refine ⟨rfl, hdigits, hvalue, ?_, fun k hlo hhi => ?_, fun hlt => dec_length_le (k := 9) (by omega)⟩
  · obtain ⟨c, cs, hcs⟩ := List.exists_cons_of_ne_nil hne
    exact ⟨c, cs, hcs, by simpa [hcs] using hhead hn⟩
  · have hk : k < (dec n).length :=
      (Nat.pow_lt_pow_iff_right (by decide)).1 (hlo.trans_lt (lt_ten_pow_dec_length n))
    exact (dec_length_le hhi).antisymm hk

/-! ## Reading OUT back -/

/-- A digit character (R206). -/
def isDigitChar (c : Nat) : Bool := decide (0x30 ≤ c ∧ c ≤ 0x39)

/-- R207's reading of OUT: a character that is no digit is a symbol, and the digits that follow are its
count. -/
def unpack : List Nat → List Nat
  | [] => []
  | c :: cs =>
    if isDigitChar c then unpack cs
    else List.replicate (decValue (cs.takeWhile isDigitChar)) c ++ unpack cs

theorem unpack_digits (cs : List Nat) (h : ∀ c ∈ cs, isDigitChar c = true) : unpack cs = [] := by
  induction cs with
  | nil => rfl
  | cons c cs ih =>
    rw [unpack, if_pos (h c (by simp)), ih fun c hc => h c (by simp [hc])]

theorem dec_isDigitChar {n c : Nat} (h : c ∈ dec n) : isDigitChar c = true :=
  decide_eq_true ((dec_spec n).2.1 c h)

/-- A run's token reads back as the run. -/
theorem unpack_runToken {sym : Nat} (hsym : isDigitChar sym = false) (cnt : Nat) :
    unpack (runToken sym cnt) = List.replicate cnt sym := by
  have hcnt : (dec cnt).takeWhile isDigitChar = dec cnt :=
    List.takeWhile_eq_self_iff.2 fun _ hc => dec_isDigitChar hc
  obtain ⟨-, -, -, hvalue⟩ := dec_spec cnt
  rw [runToken, unpack, if_neg (by simp [hsym]), hcnt, hvalue, unpack_digits _ fun _ hc => dec_isDigitChar hc,
    List.append_nil]

/-- A symbol ends the count before it, so what precedes it is read alone. -/
theorem unpack_append {sym : Nat} (hsym : isDigitChar sym = false) (cs cs' : List Nat) :
    unpack (cs ++ sym :: cs') = unpack cs ++ unpack (sym :: cs') := by
  induction cs with
  | nil => rfl
  | cons c cs ih =>
    have hcount : (cs ++ sym :: cs').takeWhile isDigitChar = cs.takeWhile isDigitChar := by
      rw [List.takeWhile_append, List.takeWhile_cons_of_neg (by simp [hsym])]
      split
      · rw [List.append_nil, List.IsPrefix.eq_of_length (List.takeWhile_prefix _) ‹_›]
      · rfl
    rw [List.cons_append, unpack, unpack, hcount, ih]
    split
    · rfl
    · rw [List.append_assoc]

theorem unpack_append_runToken {sym : Nat} (hsym : isDigitChar sym = false) (cs : List Nat) (cnt : Nat) :
    unpack (cs ++ runToken sym cnt) = unpack cs ++ List.replicate cnt sym := by
  rw [← unpack_runToken hsym, runToken, unpack_append hsym]

/-- The symbols fed so far: those OUT reads back as, then the open run (R38, R39, R45). -/
def State.fed (s : State) : List Nat :=
  unpack s.out ++ if s.runv then List.replicate s.rlecnt s.rlesym else []

/-- The open run, if there is one, is of a symbol that is no digit character. -/
def State.RunReadable (s : State) : Prop := s.runv = true → isDigitChar s.rlesym = false

theorem State.fed_of_run (h : s.runv = true) :
    s.fed = unpack s.out ++ List.replicate s.rlecnt s.rlesym := by
  rw [State.fed, if_pos h]

theorem State.fed_of_no_run (h : s.runv = false) : s.fed = unpack s.out := by
  simp [State.fed, h]

/-- An RLEPUT that takes effect feeds its symbol, in each of the three branches of R202. -/
theorem exec_rleput_fed (hs : s.RunReadable) (ha : isDigitChar a.toNat = false)
    (h : exec (.rleput a) s = .next t) :
    t.phase = .fault ∨ (t.RunReadable ∧ t.fed = s.fed ++ [a.toNat]) := by
  rcases execRleput_next h with hun | ⟨-, -, -, ⟨hrun, rfl⟩ | ⟨hrun, heq, rfl⟩ | ⟨hrun, -, rfl⟩⟩
  · exact .inl hun.phase_eq
  · exact .inr ⟨fun _ => ha, by rw [State.fed_of_run rfl, State.fed_of_no_run hrun]; rfl⟩
  · refine .inr ⟨hs, ?_⟩
    rw [State.fed_of_run hrun, List.append_assoc, heq, ← List.replicate_succ']
    exact State.fed_of_run hrun
  · refine .inr ⟨fun _ => ha, ?_⟩
    rw [State.fed_of_run hrun, ← unpack_append_runToken (hs hrun)]
    exact State.fed_of_run hrun

/-- An RLEEND that takes effect leaves in OUT what was fed. -/
theorem exec_rleend_unpack {opd : Opd} (hs : s.RunReadable) (h : exec (.rleend opd) s = .next t) :
    t.phase = .fault ∨ unpack t.out = s.fed := by
  rcases execRleend_next h with hun | ⟨-, -, hrun, rfl⟩
  · exact .inl hun.phase_eq
  · exact .inr ((unpack_append_runToken (hs hrun) _ _).trans (State.fed_of_run hrun).symm)

/-- OUT at the end of a call reads back as what was fed before and the rest of the input. -/
theorem execAll_rle_unpack (hx : ∀ a ∈ x, isDigitChar a.toNat = false) (hs : s.RunReadable)
    (h : execAll (x.map .rleput ++ [.rleend 0]) s = .next t) (ht : t.phase = .rledone) :
    unpack t.out = s.fed ++ x.map BitVec.toNat := by
  induction x generalizing s with
  | nil =>
    obtain ⟨u, hend, hu⟩ := execAll_cons_next h
    obtain rfl : u = t := by simpa [execAll] using hu
    have hout := (exec_rleend_unpack hs hend).resolve_left (by simp [ht])
    rw [hout, List.map_nil, List.append_nil]
  | cons a x ih =>
    obtain ⟨u, hput, hu⟩ := execAll_cons_next h
    rcases exec_rleput_fed hs (hx a (by simp)) hput with hfault | ⟨hread, hfed⟩
    · rw [execAll_ignored hfault fun i hi hc => by simp [hc] at hi] at hu
      injection hu with hu
      rw [← hu, hfault] at ht
      cases ht
    · rw [ih (fun b hb => hx b (by simp [hb])) hread hu, hfed, List.append_assoc]
      rfl

/-- Where no symbol is a digit character, OUT of a whole call reads back as the input (R207). -/
theorem execAll_rleCall_unpack (hx : ∀ a ∈ x, ¬ (0x30 ≤ a.toNat ∧ a.toNat ≤ 0x39))
    (h : execAll ([.clear 0] ++ x.map .rleput ++ [.rleend 0]) s = .next t) (ht : t.phase = .rledone) :
    unpack t.out = x.map BitVec.toNat := by
  rw [List.append_assoc, List.singleton_append, execAll_cons (exec_clear s)] at h
  exact execAll_rle_unpack (fun a ha => decide_eq_false (hx a ha)) (by simp [State.RunReadable]) h ht

/-- Settles O51: both inputs are what OUT reads back as. -/
theorem rleOutputDeterminesInput : Obligations.RleOutputDeterminesInput := by
  intro s x y t u hx hy ht htp hu hup hout
  refine List.map_injective_iff.2 (fun _ _ => BitVec.eq_of_toNat_eq) ?_
  rw [← execAll_rleCall_unpack hx ht htp, hout, execAll_rleCall_unpack hy hu hup]

end Sys2Proof.Machine
end

section
/-!
PROOFS. NOP and CLEAR (45_control.md R220, R221), and why a call that begins with CLEAR does not depend
on what ran before it (R223).
-/

namespace Sys2Proof.Machine

variable {s : State}

/-! ## One command -/

/-- NOP with operand 0 has no effect in any phase; in FAULT, because it is ignored (R220, R243). -/
theorem exec_nop (s : State) : exec (.nop 0) s = .next s := by
  by_cases hf : s.phase = .fault
  · exact exec_ignored hf (by decide)
  · exact command_legal (by simpa [legalIn] using hf) (operandLegal_zero rfl rfl)

/-- Settles O14: a nonzero operand is the operand failure. -/
theorem nopChangesNothing : Obligations.NopChangesNothing := fun s =>
  ⟨exec_nop s, fun _ ho hf => exec_illegalOperand hf (beq_false_of_ne ho)⟩

/-- Settles O13: `State.clear` is the reset state; a nonzero operand is the operand failure, which FAULT
shuts out. -/
theorem clearLeavesResetState : Obligations.ClearLeavesResetState := fun s =>
  ⟨by rw [exec_clear, State.clear_eq_reset], fun _ ho =>
    ⟨fun hf => exec_illegalOperand hf (beq_false_of_ne ho),
      fun hf => exec_ignored hf fun h => ho (Instr.clear.inj h)⟩⟩

/-! ## The first step of a call -/

/-- Serving the CLEAR word leaves the reset state with the inputs behind it: of the state before, only
the parameters remain (R221). -/
theorem step_clear {rest : List Input} (hs : s.inputs = .bus (.write 0x00 4 0x01000000#32) :: rest) :
    step s = .next { State.resetWith s.par with inputs := rest, response := some .okayWrite } := by
  have hd : decode 0x01000000#32 = .ok (.clear 0) := rfl
  rw [step_command hd hs, exec_clear, State.clear_eq_reset]
  rfl

/-- Runs whose first steps have the same outcome agree from then on. -/
theorem run_congr_of_step_eq {M : Host.Core} {s₁ s₂ : M.State} (h : M.step s₁ = M.step s₂) (n : Nat) :
    M.run (n + 1) s₁ = M.run (n + 1) s₂ := by
  simp only [Host.Core.run, h]

/-- Settles O15: the states agree once CLEAR has been served. -/
theorem callsAreIsolated : Obligations.CallsAreIsolated := by
  intro s₁ s₂ rest n hpar h₁ h₂
  have hstep : step s₁ = step s₂ := by rw [step_clear h₁, step_clear h₂, hpar]
  exact run_congr_of_step_eq (M := core) hstep n

end Sys2Proof.Machine
end

section
/-!
PROOFS. The failures of a command: the table of phases and the order of the causes (60_exceptions.md R240
to R242), what a failure leaves unchanged (R236, R248), and the phase a command leads to (R241).
-/

namespace Sys2Proof.Machine

variable {i : Instr} {s t : State} {w : Word}

/-! ## The two tests every command passes first -/

/-- A command's own tests never report BAD_PHASE (R242). -/
theorem ownCause_ne_badPhase (s : State) (i : Instr) : ownCause s i ≠ .badPhase := by
  cases i with
  | loadf a =>
    rw [ownCause]
    split <;> decide
  | nop | clear | count | rdfreq | build | rdnode | gencode | rdcode | emit | rleput | rleend =>
    exact Cause.noConfusion

/-- With a legal operand BAD_PHASE is the outcome exactly in the phases that are not the command's. -/
theorem exec_badPhase_iff (hf : s.phase ≠ .fault) (hw : i.wellFormed s.par = true) :
    exec i s = .next (s.fail .badPhase (encode i)) ↔ legalIn s.phase i = false := by
  refine ⟨fun h => Bool.eq_false_iff.2 fun hl => ?_, exec_illegalPhase hf hw⟩
  obtain ⟨-, ht⟩ := exec_ownCause hf hw hl h rfl
  exact ownCause_ne_badPhase s i (congrArg State.err ht).symm

/-- A command that completes outside FAULT passed both tests. -/
theorem tests_of_exec (hf : s.phase ≠ .fault) (h : exec i s = .next t) (ht : t.phase ≠ .fault) :
    i.wellFormed s.par = true ∧ legalIn s.phase i = true := by
  have hw : i.wellFormed s.par = true := by
    by_contra hw
    rw [exec_illegalOperand hf (Bool.eq_false_iff.2 hw)] at h
    cases h
    exact ht rfl
  refine ⟨hw, ?_⟩
  by_contra hl
  rw [exec_illegalPhase hf hw (Bool.eq_false_iff.2 hl)] at h
  cases h
  exact ht rfl

/-! ## The table of phases -/

/-- In IDLE no symbol was counted and no run is open (R44 items 1, 7). -/
theorem State.Inv.idle (hs : s.Inv) (hp : s.phase = .idle) : s.nsyms = 0 ∧ s.runv = false := by
  obtain ⟨hcall, -⟩ := hs.call (by simp [hp])
  rw [hp] at hcall
  refine ⟨?_, hcall.runv_eq (by decide)⟩
  rw [hcall.nsyms_eq, State.present_eq_nil (hcall.fresh rfl).1]
  rfl

/-- BUILD in IDLE finds an empty table (R142, R240). -/
theorem exec_build_idle (hs : s.Inv) (hp : s.phase = .idle) :
    exec (.build 0) s = .next (s.fail .emptyInput 0x20000000#32) :=
  exec_build_empty (.inl hp) (hs.idle hp).1

/-- RLEEND in IDLE finds no open run (R204, R240). -/
theorem exec_rleend_idle (hs : s.Inv) (hp : s.phase = .idle) :
    exec (.rleend 0) s = .next (s.fail .emptyInput 0x51000000#32) :=
  exec_rleend_empty (.inl hp) (hs.idle hp).2

/-- Settles O7: BAD_PHASE marks the phases that `legalIn` leaves out, row by row. -/
theorem phaseTable : Obligations.PhaseTable := by
  refine fun i s => ⟨fun hw hf => (exec_badPhase_iff hf hw).trans ?_, fun hw hf => exec_illegalOperand hf hw,
    exec_ignored, fun _ => exec_clear s, fun hs hp => ⟨exec_build_idle hs hp, exec_rleend_idle hs hp⟩⟩
  generalize s.phase = p at hf
  cases p with
  | fault => exact absurd rfl hf
  | idle | hcount | htree | hcode | rlerun | rledone => cases i <;> simp [legalIn]

/-! ## The order of the causes -/

/-- In FAULT every word but that of CLEAR with operand 0 is ignored (R243). -/
theorem runWord_ignored (hf : s.phase = .fault) (hw : w ≠ 0x01000000#32) : runWord w s = .next s := by
  cases hd : decode w with
  | ok i =>
    have hi : i ≠ .clear 0 := fun hi => hw (by rw [← encode_of_decode hd, hi]; rfl)
    rw [runWord_of_decode hd, exec_ignored hf hi]
  | error e => simp [runWord, hd, raiseIllegal, hf]

/-- Settles O9: the tests in the order in which `runWord` and `command` make them, `ownCause` for the
last. -/
theorem firstApplicableCauseWins : Obligations.FirstApplicableCauseWins := by
  refine fun w s t h => ⟨fun hf hw => ?_, fun hf => ⟨fun hd => ?_, fun i hd => ?_⟩⟩
  · rw [runWord_ignored hf hw] at h
    injection h with h
    exact h.symm
  · rcases runWord_next h with ⟨i, hi, -⟩ | ⟨-, ⟨hf', -⟩ | ⟨-, rfl⟩⟩
    · rw [hd] at hi
      cases hi
    · exact absurd hf' hf
    · rfl
  · rw [runWord_of_decode hd] at h
    refine ⟨fun hw => ?_, fun hw hl => ?_, fun hw hl ht => ?_⟩
    · rw [exec_illegalOperand hf hw] at h
      cases h
      rfl
    · rw [exec_illegalPhase hf hw hl] at h
      cases h
      rfl
    · obtain ⟨hne, rfl⟩ := exec_ownCause hf hw hl h ht
      cases i with
      | nop | clear | rdfreq | gencode => exact hne rfl
      | count | loadf | build | rdnode | rdcode | emit | rleput | rleend => rfl

/-! ## What a failure changes -/

/-- Settles O10: a command that ends in FAULT did not take effect, and outside FAULT that is a failure. -/
theorem failureChangesOnlyFailureRegisters : Obligations.FailureChangesOnlyFailureRegisters := by
  intro w s t h hf ht
  have hfail : ∃ c, c ≠ .none ∧ t = s.fail c w := by
    rcases runWord_next h with ⟨i, hd, hi⟩ | ⟨-, ⟨hf', -⟩ | ⟨-, rfl⟩⟩
    · rcases unexecuted_of_fault hi ht with ⟨hf', -⟩ | ⟨-, c, hc, rfl⟩
      · exact absurd hf' hf
      · exact ⟨c, hc, by rw [encode_of_decode hd]⟩
    · exact absurd hf' hf
    · exact ⟨.illegalCmd, by decide, rfl⟩
  obtain ⟨c, hc, rfl⟩ := hfail
  exact ⟨hc, rfl⟩

/-! ## The phase a command leads to -/

/-- The phase after a command that completes in phase `p` (R241). -/
def phaseAfter (p : Phase) : Instr → Phase
  | .nop _ | .rdfreq _ | .rdnode _ | .rdcode _ | .emit _ => p
  | .clear _ => .idle
  | .count _ | .loadf _ => .hcount
  | .build _ => .htree
  | .gencode _ => .hcode
  | .rleput _ => .rlerun
  | .rleend _ => .rledone

/-- By what each command does where it takes effect. -/
theorem exec_phase (h : exec i s = .next t) : t.phase = .fault ∨ t.phase = phaseAfter s.phase i := by
  cases i with
  | nop o => exact (execNop_next h).imp Unexecuted.phase_eq fun ⟨_, _, ht⟩ => ht ▸ rfl
  | clear o => exact (execClear_next h).imp Unexecuted.phase_eq fun ⟨_, ht⟩ => ht ▸ rfl
  | count a => exact (execCount_next h).imp Unexecuted.phase_eq fun ⟨_, _, _, ht⟩ => ht ▸ rfl
  | loadf a => exact (execLoadf_next h).imp Unexecuted.phase_eq fun ⟨_, _, _, _, _, ht⟩ => ht ▸ rfl
  | rdfreq a => exact (execRdfreq_next h).imp Unexecuted.phase_eq fun ⟨_, _, ht⟩ => ht ▸ rfl
  | build o => exact (execBuild_next h).imp Unexecuted.phase_eq fun ⟨_, _, _, _, _, _, ht⟩ => ht ▸ rfl
  | rdnode x => exact (execRdnode_next h).imp Unexecuted.phase_eq fun ⟨_, _, ht⟩ => ht ▸ rfl
  | gencode o => exact (execGencode_next h).imp Unexecuted.phase_eq fun ⟨_, _, _, _, ht⟩ => ht ▸ rfl
  | rdcode a => exact (execRdcode_next h).imp Unexecuted.phase_eq fun ⟨_, _, _, ht⟩ => ht ▸ rfl
  | emit a => exact (execEmit_next h).imp Unexecuted.phase_eq fun ⟨_, _, _, ht⟩ => ht ▸ rfl
  | rleput a => exact (execRleput_feeds h).imp Unexecuted.phase_eq fun ⟨_, _, _, _, _, _, _, ht⟩ => ht ▸ rfl
  | rleend o => exact (execRleend_next h).imp Unexecuted.phase_eq fun ⟨_, _, _, ht⟩ => ht ▸ rfl

/-- The edges of the phase graph but those to FAULT and those of CLEAR (R241). -/
def phaseEdges : List (Phase × Phase) :=
  [(.idle, .hcount), (.hcount, .htree), (.htree, .hcode), (.idle, .rlerun), (.rlerun, .rledone)]

/-- Under the invariant a command that completes keeps the phase or follows an edge. From IDLE, BUILD and
RLEEND do not complete. -/
theorem phaseAfter_edge (hs : s.Inv) (hf : s.phase ≠ .fault) (h : exec i s = .next t)
    (ht : t.phase ≠ .fault) (hi : i ≠ .clear 0) :
    phaseAfter s.phase i = s.phase ∨ (s.phase, phaseAfter s.phase i) ∈ phaseEdges := by
  obtain ⟨hw, hl⟩ := tests_of_exec hf h ht
  cases i with
  | nop | rdfreq | rdnode | rdcode | emit => exact .inl rfl
  | clear o => exact absurd (congrArg Instr.clear (by simpa [Instr.wellFormed] using hw)) hi
  | count a | loadf a =>
    have hp : s.phase = .idle ∨ s.phase = .hcount := by simpa [legalIn] using hl
    rcases hp with hp | hp <;> simp [hp, phaseAfter, phaseEdges]
  | build o =>
    have hp : s.phase = .idle ∨ s.phase = .hcount := by simpa [legalIn] using hl
    have ho : o = 0 := by simpa [Instr.wellFormed] using hw
    rcases hp with hp | hp
    · rw [ho, exec_build_idle hs hp] at h
      cases h
      exact absurd rfl ht
    · simp [hp, phaseAfter, phaseEdges]
  | gencode o =>
    have hp : s.phase = .htree := by simpa [legalIn] using hl
    simp [hp, phaseAfter, phaseEdges]
  | rleput a =>
    have hp : s.phase = .idle ∨ s.phase = .rlerun := by simpa [legalIn] using hl
    rcases hp with hp | hp <;> simp [hp, phaseAfter, phaseEdges]
  | rleend o =>
    have hp : s.phase = .idle ∨ s.phase = .rlerun := by simpa [legalIn] using hl
    have ho : o = 0 := by simpa [Instr.wellFormed] using hw
    rcases hp with hp | hp
    · rw [ho, exec_rleend_idle hs hp] at h
      cases h
      exact absurd rfl ht
    · simp [hp, phaseAfter, phaseEdges]

/-- Settles O11: the phase `exec_phase` gives is an edge of the graph or the phase of before; in FAULT
nothing but CLEAR changes it. -/
theorem phaseAfterCommand : Obligations.PhaseAfterCommand := by
  refine fun i s t h => ⟨fun _ => exec_phase h, fun hs => ?_⟩
  by_cases hi : i = .clear 0
  · rw [hi, exec_clear] at h
    cases h
    exact .inr (.inr (.inl ⟨hi, rfl⟩))
  by_cases hf : s.phase = .fault
  · rw [exec_ignored hf hi] at h
    cases h
    exact .inl rfl
  rcases exec_phase h with ht | ht
  · exact .inr (.inl ht)
  by_cases ht' : t.phase = .fault
  · exact .inr (.inl ht')
  rw [ht]
  exact (phaseAfter_edge hs hf h ht' hi).imp_right fun h => .inr (.inr h)

end Sys2Proof.Machine
end

section
/-!
PROOFS. The bus and failures: FAULT as the host sees it (60_exceptions.md R243, R244), and why a refused
access is no failure (R247).
-/

namespace Sys2Proof.Machine

variable {s t : State} {x : Transaction} {w : Word}

/-- Settles O8: CMD ignores the word, and the other accesses do not look at the phase. -/
theorem faultIgnoresCommands : Obligations.FaultIgnoresCommands := by
  refine fun s hf => ⟨fun w hw => ?_, fun off r d hr hd => ?_, fun v => serve_write_arg⟩
  · exact serve_write_cmd.trans (by rw [runWord_ignored hf hw]; rfl)
  · rw [Reg.offset_of_at hr]
    exact serve_read_register r hd

/-- What a transaction can do: nothing but be answered; write ARG; or execute the word written to CMD. The
last two are answered OKAY (R61, R62). -/
theorem serve_next (h : serve x s = .next t) :
    (∃ r, t = s.respond r) ∨ (∃ v, t = { s with arg := v }.respond .okayWrite) ∨
      ∃ w u, x = .write 0x00 4 w ∧ runWord w s = .next u ∧ t = u.respond .okayWrite := by
  cases x with
  | read off size =>
    injection h with h
    exact .inl ⟨_, h.symm⟩
  | write off size w =>
    unfold serve at h
    dsimp only at h
    split at h
    · obtain ⟨u, hu, rfl⟩ := answer_next h
      obtain ⟨rfl, rfl⟩ := accessed_eq_some_iff.1 ‹accessed off size = some .cmd›
      exact .inr (.inr ⟨w, u, rfl, hu, rfl⟩)
    · injection h with h
      exact .inr (.inl ⟨w, h.symm⟩)
    · injection h with h
      exact .inl ⟨_, h.symm⟩

/-- Settles O21: of what a transaction can do, only the first is answered ERROR. -/
theorem busErrorIsNoFailure : Obligations.BusErrorIsNoFailure := by
  refine fun x s t h => ⟨fun he => ?_, fun w hx => ?_⟩
  · rcases serve_next h with ⟨r, rfl⟩ | ⟨v, rfl⟩ | ⟨w, u, -, -, rfl⟩
    · obtain rfl : r = .error := Option.some.inj he
      rfl
    · cases he
    · cases he
  · subst hx
    obtain ⟨u, -, rfl⟩ := answer_next (serve_write_cmd.symm.trans h)
    rfl

theorem step_cons {x : Input} {rest : List Input} (hs : s.inputs = x :: rest) :
    step s = takeInput x { s with inputs := rest } := by
  simp [step, hs]

/-- Of all transactions, only the word 0x01000000 written to CMD leads out of FAULT (R243, R244). -/
theorem serve_leaves_fault (hf : s.phase = .fault) (h : serve x s = .next t) (ht : t.phase ≠ .fault) :
    x = .write 0x00 4 0x01000000#32 := by
  rcases serve_next h with ⟨r, rfl⟩ | ⟨v, rfl⟩ | ⟨w, u, rfl, hu, rfl⟩
  · exact absurd hf ht
  · exact absurd hf ht
  · by_contra hw
    rw [runWord_ignored hf fun h => hw (by rw [h])] at hu
    cases hu
    exact ht hf

/-- Settles O17: a reset gives the reset state, and so does CLEAR, the one transaction that leaves FAULT. -/
theorem onlyClearOrResetLeavesFault : Obligations.OnlyClearOrResetLeavesFault := by
  intro s t h hf ht
  cases hs : s.inputs with
  | nil =>
    simp only [step, hs] at h
    cases h
    exact absurd hf ht
  | cons x rest =>
    refine ⟨rest, ?_⟩
    have htake := (step_cons hs).symm.trans h
    cases x with
    | bus x =>
      obtain rfl := serve_leaves_fault (s := { s with inputs := rest }) hf htake ht
      rw [step_clear hs] at h
      cases h
      exact ⟨.inl rfl, rfl⟩
    | reset =>
      cases htake
      exact ⟨.inr (.inl rfl), rfl⟩
    | resetDuring x =>
      cases htake
      exact ⟨.inr (.inr ⟨x, rfl⟩), rfl⟩

end Sys2Proof.Machine
end

section
/-!
PROOFS. Every step answers a next state (60_exceptions.md R230, 70_reset_and_hazards.md R281): only BUILD
and GENCODE have a stop, and the invariant of the call rules both out.
-/

namespace Sys2Proof.Machine

variable {i : Instr} {s : State} {o : Opd} {w : Word}

/-- The outcome is a next state, neither a fault nor a refusal. -/
def Completes (x : Host.Outcome State Fault Refusal) : Prop := ∃ t, x = .next t

theorem Completes.next (t : State) : Completes (.next t) := ⟨t, rfl⟩

theorem Completes.ite {c : Prop} [Decidable c] {x y : Host.Outcome State Fault Refusal}
    (hx : Completes x) (hy : Completes y) : Completes (if c then x else y) := by
  split
  · exact hx
  · exact hy

/-- The tests every command passes first answer a next state, so a command completes where its own rule
does. -/
theorem Completes.command {body : Host.Outcome State Fault Refusal} (h : Completes body) :
    Completes (command i s body) :=
  .ite (.next _) (.ite (.next _) (.ite (.next _) h))

theorem Completes.answer {r : Response} {x : Host.Outcome State Fault Refusal} (h : Completes x) :
    Completes (answer r x) := by
  obtain ⟨t, rfl⟩ := h
  exact .next _

/-- Where one of the tests of FAULT, operand and phase fails, a command completes whatever its own rule. -/
theorem Completes.of_tests
    (h : s.phase ≠ .fault → i.wellFormed s.par = true → legalIn s.phase i = true → Completes (exec i s)) :
    Completes (exec i s) := by
  by_cases hf : s.phase = .fault
  · by_cases hi : i = .clear 0
    · exact ⟨_, hi ▸ exec_clear s⟩
    · exact ⟨_, exec_ignored hf hi⟩
  · cases hw : i.wellFormed s.par with
    | false => exact ⟨_, exec_illegalOperand hf hw⟩
    | true =>
      cases hl : legalIn s.phase i with
      | false => exact ⟨_, exec_illegalPhase hf hw hl⟩
      | true => exact h hf hw hl

/-- BUILD never finds the queue empty: an NSYMS other than 0 counts an entry (R44 item 1). -/
theorem exec_build_completes (hs : s.Inv) : Completes (exec (.build o) s) := by
  refine .of_tests fun hf hw hl => ?_
  obtain rfl : o = 0 := by simpa [Instr.wellFormed] using hw
  have hp : s.phase = .idle ∨ s.phase = .hcount := by simpa [legalIn] using hl
  by_cases hn : s.nsyms = 0
  · exact ⟨_, exec_build_empty hp hn⟩
  · have hpres : s.present ≠ [] := fun h => hn (by rw [(hs.call hf).1.nsyms_eq, h]; rfl)
    obtain ⟨t, ht, -⟩ := exec_build_built hp hn hpres
    exact ⟨t, ht⟩

/-- GENCODE's walk ends: in HTREE the records of NODE are a tree (R44 item 5). -/
theorem exec_gencode_completes (hs : s.Inv) : Completes (exec (.gencode o) s) := by
  refine .of_tests fun _ hw hl => ?_
  obtain rfl : o = 0 := by simpa [Instr.wellFormed] using hw
  have hp : s.phase = .htree := by simpa [legalIn] using hl
  obtain ⟨code, hcode⟩ := exec_gencode hp (hs.call_of_phase hp (by decide))
  exact ⟨_, hcode⟩

/-- The other commands have no stop: each of their own tests fails or lets the rule take effect. -/
theorem exec_completes (hs : s.Inv) (i : Instr) : Completes (exec i s) := by
  cases i with
  | nop o => exact .command (.next _)
  | clear o => exact .ite (.next _) (.command (.next _))
  | count a => exact .command (.ite (.next _) (.next _))
  | loadf a =>
    refine .command ?_
    split
    · exact .next _
    · exact .ite (.next _) (.next _)
  | rdfreq a => exact .command (.next _)
  | build o => exact exec_build_completes hs
  | rdnode x => exact .command (.ite (.next _) (.next _))
  | gencode o => exact exec_gencode_completes hs
  | rdcode a => exact .command (.ite (.next _) (.next _))
  | emit a => exact .command (.ite (.next _) (.next _))
  | rleput a => exact .command (.ite (.next _) (.ite (.next _) (.ite (.next _) (.next _))))
  | rleend o => exact .command (.ite (.next _) (.next _))

theorem runWord_completes (hs : s.Inv) (w : Word) : Completes (runWord w s) := by
  unfold runWord
  split
  · exact exec_completes hs _
  · exact .ite (.next _) (.next _)

theorem serve_completes (hs : s.Inv) (x : Transaction) : Completes (serve x s) := by
  cases x with
  | read off size => exact .next _
  | write off size w =>
    unfold serve
    dsimp only
    split
    · exact (runWord_completes hs w).answer
    · exact .next _
    · exact .next _

/-- Settles O56: a transaction completes, for the inputs left in store are no part of the invariant, and so
does a reset. -/
theorem everyStepCompletes : Obligations.EveryStepCompletes := by
  intro s hs
  cases hi : s.inputs with
  | nil => exact ⟨s, by simp [step, hi]⟩
  | cons x rest =>
    rw [step_cons hi]
    cases x with
    | bus x =>
      have hs' : { s with inputs := rest }.Inv := hs.withHost (response := s.response) (arg := s.arg)
      exact serve_completes hs' x
    | reset => exact ⟨_, rfl⟩
    | resetDuring x => exact ⟨_, rfl⟩

end Sys2Proof.Machine
end

section
/-!
PROOFS. The two reset inputs (70_reset_and_hazards.md R270, R272), and a block that no transaction reaches
(R271).
-/

namespace Sys2Proof.Machine

variable {s : State}

/-- Of the state before a reset, only the parameters remain; the inputs behind it stay in store (R270). -/
theorem step_reset {rest : List Input} (hs : s.inputs = .reset :: rest) :
    step s = .next { State.resetWith s.par with inputs := rest } := by
  rw [step_cons hs]
  rfl

/-- A reset abandons the transaction it interrupts, so what that was makes no difference (R272). -/
theorem step_resetDuring {x : Transaction} {rest : List Input} (hs : s.inputs = .resetDuring x :: rest) :
    step s = .next { State.resetWith s.par with inputs := rest } := by
  rw [step_cons hs]
  rfl

/-- Settles O16: one clause for each of the two inputs. -/
theorem resetInputGivesResetState : Obligations.ResetInputGivesResetState :=
  fun _ _ => ⟨step_reset, fun _ => step_resetDuring⟩

/-- With nothing in store the block waits (R271). -/
theorem step_nil (hs : s.inputs = []) : step s = .next s := by
  simp [step, hs]

/-- Settles O18: the empty store is the one case of `step` that takes no input. -/
theorem idleBlockChangesNothing : Obligations.IdleBlockChangesNothing :=
  fun _ => step_nil

end Sys2Proof.Machine
end

section
/-!
PROOFS. The command words that the spec writes out (30_encoding.md R94, R96, 95_test_vectors.md).
-/

namespace Sys2Proof.Machine

variable {w : Word}

/-- `decode_reserved` with its premise on the word alone, where `decide` settles it (R96). -/
theorem decode_reserved_of_not_mem (h : (opField w).toNat ∉ ([0x00, 0x01, 0x10, 0x11, 0x12, 0x20, 0x21, 0x30,
    0x32, 0x40, 0x50, 0x51] : List Nat)) : decode w = .error .illegalCmd :=
  decode_reserved fun i hi => h (hi ▸ opcode_mem i)

/-- Settles O3: each of the twelve words is the encoding of its command, and 0x31 and 0x99 are the opcodes of
none. -/
theorem wordsOfTheSpecDecode : Obligations.WordsOfTheSpecDecode :=
  ⟨decode_encode (.nop 0), decode_encode (.clear 0), decode_encode (.count 0x61), decode_encode (.loadf 0x61),
    decode_encode (.rdfreq 0x62), decode_encode (.build 0), decode_encode (.rdnode 3),
    decode_encode (.gencode 0), decode_encode (.rdcode 0x63), decode_encode (.emit 0x61),
    decode_encode (.rleput 0x62), decode_encode (.rleend 0), decode_reserved_of_not_mem (by decide),
    decode_reserved_of_not_mem (by decide)⟩

end Sys2Proof.Machine
end
